-- ==== Sys2Proof/Word.lean ====
section
/-! DEFINITION. The words of the block: 8-bit colour channels and buffer bytes, the `IW`-bit signed
operand port (`IW = 32`, R7 and decision D1), and the 24-bit packed colour (R65). -/

namespace Sys2Proof

/-- One byte of the pixel buffer, of a frame, or one colour channel (R6, R23, R77). -/
abbrev Byte := BitVec 8

/-- One `IW`-bit two's complement operand port of the command record, at the spec's default
`IW = 32` (R7, R79; notes/assumptions/1). -/
abbrev Word := BitVec 32

/-- A packed colour: Red in bits 23..16, Green in 15..8, Blue in 7..0 (R44, R65). -/
abbrev Packed := BitVec 24

/-- The integer can be presented at an `IW`-bit signed port (R7, R8). -/
def fitsWord (x : Int) : Bool := decide (-2147483648 ≤ x) && decide (x ≤ 2147483647)

end Sys2Proof
end

