-- ==== Sys2Proof/Config.lean ====
section
/-! DEFINITION. What one implementation fixes (the open parameters of R7, held as plain data so that a
claim about every state is a claim about every implementation) and the free values: what the
environment decides and the block does not (R130, U1, U13). -/

namespace Sys2Proof

/-- The open parameters of R7. A machine carries one `Config` and no step changes it. -/
structure Config where
  /-- `ROT_POSITIVE_TOWARD_LOWER`: the direction of a positive `rotate` (R122, D6, U7). -/
  rotPositiveTowardLower : Bool
  /-- `QUERY_BOUND_INCLUSIVE`: the pixel queries accept `index == N` (R140, D8, U1). -/
  queryBoundInclusive : Bool
  /-- `ORDER_EXTRA_CHARS_ACCEPTED`: an order string may hold other characters (R73, D5, U10). -/
  orderExtraCharsAccepted : Bool
  /-- `NMAX`: the largest supported pixel count; `none` where the implementation has no limit
  (D27, U9; notes/assumptions/5). -/
  nmax : Option Nat
  /-- `WHEEL`: the function `wheel` computes, written out as its 256 values; `none` is the formula
  of R151, the spec's default (R150, D11, U3). -/
  wheelTable : Option (Vector Packed 256)
  deriving DecidableEq, Repr

/-- Every parameter at the default R7 takes (notes/assumptions/5). -/
def Config.standard : Config where
  rotPositiveTowardLower := true
  queryBoundInclusive := false
  orderExtraCharsAccepted := true
  nmax := none
  wheelTable := none

/-- The pixel count is one this implementation supports (D27, U9). -/
def Config.admits (c : Config) (n : Nat) : Bool :=
  match c.nmax with
  | none => true
  | some m => decide (n ≤ m)

/-- FREE VALUE. The sink's answer to a `show` whose answer the host's run does not fix: any Boolean,
under no law (R130, D23, U13). Its argument numbers the draws (notes/assumptions/7). -/
opaque Config.sinkAnswer : Nat → Bool

/-- FREE VALUE. The colour an inclusive-bound pixel query returns at `index == N`: any colour, drawn
anew at every call (R140, U1). Its argument numbers the draws (notes/assumptions/8). -/
opaque Config.freeColour : Nat → Packed

end Sys2Proof
end

