-- ==== Sys2Proof/Syntax.lean ====
section
/-! DEFINITION. The operations of the command port (R78), one constructor per row of
spec/opcode_table.json, and the command record that carries one of them (R79). -/

namespace Sys2Proof

/-- The twenty operations, with the operands of R78 in its order. Integer operands are mathematical
integers (R8); colour channels and the wheel position are 8-bit unsigned ports (R77). -/
inductive Instr where
  | setPixel (index : Int) (r g b : Byte) (brightness : Int)
  | setPixelByPackedRgb (index rgb24 brightness : Int)
  | setRange (start endExclusive : Int) (r g b : Byte) (brightness : Int)
  | setRangeByPackedRgb (start endExclusive rgb24 brightness : Int)
  | setAll (r g b : Byte) (brightness : Int)
  | setAllByPackedRgb (rgb24 brightness : Int)
  | clearStrip
  | rotate (positions : Int)
  | showFrame
  | getPixelColorStr (index : Int)
  | getPixelColorPacked (index : Int)
  | getPixelColorTuple (index : Int)
  | combineColor (r g b : Byte)
  | wheel (position : Byte)
  | dumpArray
  | getPixelCount
  | getGlobalBrightness
  | getChannelOrder
  | getSend
  | getMaxBrightness
  deriving DecidableEq, Repr

/-- One command as the port carries it: the fields of R79, all sampled together. -/
structure Command where
  op : BitVec 5
  a : Word
  e : Word
  cr : Byte
  cg : Byte
  cb : Byte
  rgb : Word
  br : Word
  pos : Byte
  deriving DecidableEq, Repr

end Sys2Proof
end

