-- ==== Sys2Proof/WellFormed.lean ====
section
/-! DEFINITION. Which instructions the command port can carry: every integer operand fits an `IW`-bit
signed field (R7, R79; the 8-bit operands fit by their type, R77). -/

namespace Sys2Proof

/-- Every integer operand fits its port (R79). -/
def Instr.wf : Instr → Bool
  | .setPixel index _ _ _ brightness => fitsWord index && fitsWord brightness
  | .setPixelByPackedRgb index rgb24 brightness =>
      fitsWord index && fitsWord rgb24 && fitsWord brightness
  | .setRange start endExclusive _ _ _ brightness =>
      fitsWord start && fitsWord endExclusive && fitsWord brightness
  | .setRangeByPackedRgb start endExclusive rgb24 brightness =>
      fitsWord start && fitsWord endExclusive && fitsWord rgb24 && fitsWord brightness
  | .setAll _ _ _ brightness => fitsWord brightness
  | .setAllByPackedRgb rgb24 brightness => fitsWord rgb24 && fitsWord brightness
  | .clearStrip => true
  | .rotate positions => fitsWord positions
  | .showFrame => true
  | .getPixelColorStr index => fitsWord index
  | .getPixelColorPacked index => fitsWord index
  | .getPixelColorTuple index => fitsWord index
  | .combineColor _ _ _ => true
  | .wheel _ => true
  | .dumpArray => true
  | .getPixelCount => true
  | .getGlobalBrightness => true
  | .getChannelOrder => true
  | .getSend => true
  | .getMaxBrightness => true

end Sys2Proof
end

