-- ==== Sys2Proof/Decode.lean ====
section
/-! DEFINITION. The command record as bits, the decoder from a record to an operation (R81, R82), total
and rejecting reserved selections by name (R83), and the encoder. The op numbers are the spec's own
(D3); the places of the fields in one long word are the model's (notes/assumptions/2). -/

namespace Sys2Proof

/-- Why a command record selects no operation. -/
inductive DecodeError where
  /-- `op` is 0x00 or 0x15..0x1F (R83). -/
  | reservedOp (op : BitVec 5)
  deriving DecidableEq, Repr

/-- Reads the fields of R79 from one word in that rule's order, `op` lowest and nothing between two
fields (DESIGN CHOICE, notes/assumptions/2). -/
def Command.ofWord (w : BitVec 165) : Command where
  op := w.extractLsb' 0 5
  a := w.extractLsb' 5 32
  e := w.extractLsb' 37 32
  cr := w.extractLsb' 69 8
  cg := w.extractLsb' 77 8
  cb := w.extractLsb' 85 8
  rgb := w.extractLsb' 93 32
  br := w.extractLsb' 125 32
  pos := w.extractLsb' 157 8

/-- The word `Command.ofWord` reads: the fields of R79, the first one lowest. -/
def Command.toWord (c : Command) : BitVec 165 :=
  c.pos ++ (c.br ++ (c.rgb ++ (c.cb ++ (c.cg ++ (c.cr ++ (c.e ++ (c.a ++ c.op)))))))

/-- The operation a command record selects, with its operands (R81, R82). It depends on `op` alone;
the fields an operation does not use are ignored (R79). -/
def decode (c : Command) : Except DecodeError Instr :=
  match c.op.toNat with
  | 0x01 => .ok (.setPixel c.a.toInt c.cr c.cg c.cb c.br.toInt)
  | 0x02 => .ok (.setPixelByPackedRgb c.a.toInt c.rgb.toInt c.br.toInt)
  | 0x03 => .ok (.setRange c.a.toInt c.e.toInt c.cr c.cg c.cb c.br.toInt)
  | 0x04 => .ok (.setRangeByPackedRgb c.a.toInt c.e.toInt c.rgb.toInt c.br.toInt)
  | 0x05 => .ok (.setAll c.cr c.cg c.cb c.br.toInt)
  | 0x06 => .ok (.setAllByPackedRgb c.rgb.toInt c.br.toInt)
  | 0x07 => .ok .clearStrip
  | 0x08 => .ok (.rotate c.a.toInt)
  | 0x09 => .ok .showFrame
  | 0x0A => .ok (.getPixelColorStr c.a.toInt)
  | 0x0B => .ok (.getPixelColorPacked c.a.toInt)
  | 0x0C => .ok (.getPixelColorTuple c.a.toInt)
  | 0x0D => .ok (.combineColor c.cr c.cg c.cb)
  | 0x0E => .ok (.wheel c.pos)
  | 0x0F => .ok .dumpArray
  | 0x10 => .ok .getPixelCount
  | 0x11 => .ok .getGlobalBrightness
  | 0x12 => .ok .getChannelOrder
  | 0x13 => .ok .getSend
  | 0x14 => .ok .getMaxBrightness
  | _ => .error (.reservedOp c.op)

/-- A command record with the given `op` and every other field zero. -/
def Command.withOp (op : BitVec 5) : Command :=
  ⟨op, 0, 0, 0, 0, 0, 0, 0, 0⟩

/-- An integer operand at its `IW`-bit two's complement port (R7). -/
def port (x : Int) : Word := BitVec.ofInt 32 x

/-- The command record of an operation (R79, R81); fields it does not use are zero. -/
def encode : Instr → Command
  | .setPixel i r g b br =>
      { Command.withOp 0x01 with a := port i, cr := r, cg := g, cb := b, br := port br }
  | .setPixelByPackedRgb i v br =>
      { Command.withOp 0x02 with a := port i, rgb := port v, br := port br }
  | .setRange s e r g b br =>
      { Command.withOp 0x03 with a := port s, e := port e, cr := r, cg := g, cb := b, br := port br }
  | .setRangeByPackedRgb s e v br =>
      { Command.withOp 0x04 with a := port s, e := port e, rgb := port v, br := port br }
  | .setAll r g b br =>
      { Command.withOp 0x05 with cr := r, cg := g, cb := b, br := port br }
  | .setAllByPackedRgb v br => { Command.withOp 0x06 with rgb := port v, br := port br }
  | .clearStrip => Command.withOp 0x07
  | .rotate p => { Command.withOp 0x08 with a := port p }
  | .showFrame => Command.withOp 0x09
  | .getPixelColorStr i => { Command.withOp 0x0A with a := port i }
  | .getPixelColorPacked i => { Command.withOp 0x0B with a := port i }
  | .getPixelColorTuple i => { Command.withOp 0x0C with a := port i }
  | .combineColor r g b => { Command.withOp 0x0D with cr := r, cg := g, cb := b }
  | .wheel p => { Command.withOp 0x0E with pos := p }
  | .dumpArray => Command.withOp 0x0F
  | .getPixelCount => Command.withOp 0x10
  | .getGlobalBrightness => Command.withOp 0x11
  | .getChannelOrder => Command.withOp 0x12
  | .getSend => Command.withOp 0x13
  | .getMaxBrightness => Command.withOp 0x14

/-- The command whose word has the low `nbits` bits of `w` and zeros above them. -/
def tableCommand (nbits w : Nat) : Command :=
  Command.ofWord (BitVec.ofNat 165 (w % 2 ^ nbits))

/-- The operation the decoder reads from a word numbered as spec/opcode_table.json numbers it. -/
def decodeTableWord (nbits w : Nat) : Option Instr :=
  match decode (tableCommand nbits w) with
  | .ok i => some i
  | .error _ => none

/-- `MAX_BRIGHTNESS` (R6, R31). -/
def maxBrightness : Nat := 31

end Sys2Proof
end

