-- ==== Sys2Proof/Machine/State.lean ====
section
/-! DEFINITION. The machine's state as plain data: the strip (the whole architectural state, R20), the
host's pending inputs, the environment's answers, and what has left the block on its three outputs
(responses, frames, diagnostics). -/

namespace Sys2Proof.Machine

/-- A logical channel, as the host names it (R29, R42). -/
inductive Channel where
  | red | green | blue
  deriving DecidableEq, Repr

/-- `CHANNEL_ORDER`: the byte offset of each logical channel within a pixel record, three 2-bit fields
(R29, R33). -/
structure ChannelMap where
  offR : BitVec 2
  offG : BitVec 2
  offB : BitVec 2
  deriving DecidableEq, Repr

/-- The pixel buffer: (offset, byte) pairs in canonical form, offsets strictly rising and no pair that
holds what construction left there (R195; notes/assumptions/13). -/
abbrev Memory := List Host.Cell

/-- The complete architectural state of one PixelStrip (R20, R33). -/
structure Strip where
  /-- `PIXEL_COUNT`, an `IW`-bit register that is never negative (R27, R33); `N` is its value. -/
  count : Word
  /-- `GLOBAL_BRIGHTNESS`, `GB`, 5 bits (R28). -/
  globalBrightness : BitVec 5
  /-- `CHANNEL_ORDER` (R29). -/
  channelMap : ChannelMap
  /-- `SEND`: a send capability is present (R30). -/
  send : Bool
  /-- The pixel buffer (R23). -/
  buf : Memory
  deriving DecidableEq, Repr

/-- `N`, the value of `PIXEL_COUNT` (R27). -/
def Strip.pixelCount (t : Strip) : Nat := t.count.toNat

/-- What a response carries (R80): its constructor is the response `kind`. `absent` is the sentinel of
R68, different from every value. -/
inductive Payload where
  | none
  | absent
  | int (v : Nat)
  | triple (x y z : Nat)
  | string (cs : List Char)
  | bool (b : Bool)
  deriving DecidableEq, Repr

/-- The `err` field of a response (R80, R173). -/
inductive Err where
  | ok
  | sendFailure
  deriving DecidableEq, Repr

/-- The one response record of a completed command (R80). -/
structure Response where
  err : Err
  payload : Payload
  deriving DecidableEq, Repr

/-- How a construction ended (R173). -/
inductive ConstructErr where
  | constructed
  | typeError
  deriving DecidableEq, Repr

/-- What the block reports to the host: a command's response (R80) or a construction's result (R173). -/
inductive Reply where
  | response (r : Response)
  | construction (e : ConstructErr)
  deriving DecidableEq, Repr

/-- The raw `send` construction argument: a callable, "none", or anything else (R172, R190). -/
inductive SendArg where
  | callable
  | absent
  | other
  deriving DecidableEq, Repr

/-- The raw construction inputs (R190), the two integers at `IW`-bit signed ports (R7, D1); `none` where an
optional argument is omitted. -/
structure ConstructArgs where
  pixelCount : Word
  send : SendArg
  globalBrightness : Option Word
  channelOrder : Option (List Char)
  deriving DecidableEq, Repr

/-- One thing the host does to the block: construct a strip or issue a command (R4, R78). -/
inductive HostEvent where
  | construct (args : ConstructArgs)
  | command (c : Command)
  deriving DecidableEq, Repr

/-- Why the machine stops with a fault. -/
inductive Fault where
  /-- Raised by the buffer accesses of Ops.lean at an offset the buffer does not have (R41, R50). Safe:
  every operation tests its index first, and no command on a strip reaches it. -/
  | noSuchOffset
  deriving DecidableEq, Repr

/-- Why the machine gives an input no meaning. -/
inductive Refusal where
  /-- Raised by an arm of `exec` that has no meaning yet; no arm raises it. Safe. -/
  | notModelled (mnemonic : String)
  /-- Raised by `step` on a command whose `op` is reserved (R83, U2). Safe. -/
  | reservedOp (op : BitVec 5)
  /-- Raised by every command when no strip exists (R198, U5). Safe. -/
  | noStrip
  /-- Raised by a construction whose pixel count is above `NMAX` (D27, U9). Safe. -/
  | aboveNmax
  deriving DecidableEq, Repr

/-- The machine: one strip or none (R198), its implementation parameters, and the world around it. -/
structure State where
  /-- The implementation's parameters (R7); no step changes them. -/
  cfg : Config
  /-- The strip; `none` before a construction and after a failed one (R197, R198). -/
  strip : Option Strip
  /-- The host's inputs not yet taken, the oldest first (R21, R51). -/
  inbox : List HostEvent
  /-- The sink's coming answers that the environment has fixed, the next one first
  (R130; notes/assumptions/7). -/
  sinkAnswers : List Bool
  /-- The model's own counter of free values drawn (notes/assumptions/7, 8). -/
  freeCount : Nat
  /-- Everything reported to the host, the oldest first (R80, R173; notes/assumptions/9). -/
  replies : List Reply
  /-- Every frame handed to the sink, the oldest first (R132; notes/assumptions/9). -/
  frames : List (List Byte)
  /-- The raw bytes `dump_array` rendered, one entry a call (R153; notes/assumptions/16). -/
  dumps : List (List Byte)
  deriving DecidableEq, Repr

/-- The machine right after reset, which is construction (R34, R196): the strip of `construct(3, sink)`,
the inputs being the model's choice (notes/assumptions/4), with nothing pending and nothing emitted. -/
def State.reset : State where
  cfg := Config.standard
  strip := some
    { count := 3
      globalBrightness := 31
      channelMap := { offR := 3, offG := 2, offB := 1 }
      send := true
      buf := [] }
  inbox := []
  sinkAnswers := []
  freeCount := 0
  replies := []
  frames := []
  dumps := []

end Sys2Proof.Machine
end

