-- ==== Sys2Proof/Machine/Operands.lean ====
section
/-! DEFINITION. The arithmetic primitives (R9..R12), the data formats (R60..R69) and the operand forms
(R70..R77): brightness scaler, marker packer, packed colours, colour strings, order strings, the
colour wheel. -/

namespace Sys2Proof.Machine

/-- `clamp31(x)` (R9; a negative value becomes 0 by decision D9, notes/assumptions/14). -/
def clamp31 (x : Int) : Nat :=
  if x < 0 then 0 else if 31 < x then 31 else x.toNat

/-- `scale(br, GB)` (R10). -/
def scale (br : Int) (gb : BitVec 5) : Nat := clamp31 br * gb.toNat / 31

/-- `MarkerByte(br)`: the scaled brightness masked to 5 bits under the marker pattern (R60, R70). -/
def markerByte (gb : BitVec 5) (br : Int) : Byte :=
  0xE0#8 ||| (BitVec.ofNat 8 (scale br gb) &&& 0x1F#8)

/-- `ceil(n / 16)` (R12). -/
def ceil16 (n : Nat) : Nat := (n + 15) / 16

/-- `x mod n`, the floored remainder, for `n > 0` (R11). -/
def floorMod (x : Int) (n : Nat) : Nat := (x % (n : Int)).toNat

/-- `(r << 16) | (g << 8) | b` (R65). -/
def packColour (r g b : Byte) : Packed :=
  (r.setWidth 24 <<< 16) ||| (g.setWidth 24 <<< 8) ||| b.setWidth 24

/-- Red of a packed colour, bits 23..16 (R65). -/
def Packed.red (w : Packed) : Byte := BitVec.extractLsb' 16 8 w

/-- Green of a packed colour, bits 15..8 (R65). -/
def Packed.green (w : Packed) : Byte := BitVec.extractLsb' 8 8 w

/-- Blue of a packed colour, bits 7..0 (R65). -/
def Packed.blue (w : Packed) : Byte := BitVec.extractLsb' 0 8 w

/-- The packed-colour operand: the low 24 bits, higher bits discarded (R76; negative values by D10,
notes/assumptions/14). -/
def packedOperand (v : Int) : Packed := BitVec.ofInt 24 v

/-- One upper-case hexadecimal digit (R66). -/
def hexDigit (n : Nat) : Char :=
  ['0', '1', '2', '3', '4', '5', '6', '7', '8', '9', 'A', 'B', 'C', 'D', 'E', 'F'].getD n '0'

/-- `hex2(v)`: two digits, the high one first (R141). -/
def hex2 (v : Byte) : List Char := [hexDigit (v.toNat / 16), hexDigit (v.toNat % 16)]

/-- The colour string `#RRGGBB` (R66). -/
def colourString (r g b : Byte) : Payload := .string ('#' :: (hex2 r ++ hex2 g ++ hex2 b))

/-- The packed colour as a response (R65, R142). -/
def colourPacked (r g b : Byte) : Payload := .int (packColour r g b).toNat

/-- The colour tuple, Red first (R67, R143). -/
def colourTriple (r g b : Byte) : Payload := .triple r.toNat g.toNat b.toNat

/-- The frame of `n` pixels: four zero bytes, the buffer, `ceil(n/16)` zero bytes (R62, R63). -/
def frameOf (n : Nat) (bytes : List Byte) : List Byte :=
  List.replicate 4 0 ++ bytes ++ List.replicate (ceil16 n) 0

/-- The offset of a logical channel (R29). -/
def ChannelMap.off (m : ChannelMap) : Channel → BitVec 2
  | .red => m.offR
  | .green => m.offG
  | .blue => m.offB

/-- The map with one channel's offset replaced. -/
def ChannelMap.setOff (m : ChannelMap) (c : Channel) (k : BitVec 2) : ChannelMap :=
  match c with
  | .red => { m with offR := k }
  | .green => { m with offG := k }
  | .blue => { m with offB := k }

/-- The default map: physical layout Blue, Green, Red (R29, R75). -/
def ChannelMap.standard : ChannelMap := { offR := 3, offG := 2, offB := 1 }

/-- The channel a character of an order string names (R72; ASCII letters, notes/assumptions/18). -/
def channelOf (ch : Char) : Option Channel :=
  if ch = 'R' ∨ ch = 'r' then some .red
  else if ch = 'G' ∨ ch = 'g' then some .green
  else if ch = 'B' ∨ ch = 'b' then some .blue
  else none

/-- How many characters of the string name the channel (R73). -/
def letterCount (c : Channel) : List Char → Nat
  | [] => 0
  | ch :: cs => (if channelOf ch = some c then 1 else 0) + letterCount c cs

/-- Validity of an order string (R73), under `ORDER_EXTRA_CHARS_ACCEPTED`. -/
def orderValid (extraOk : Bool) (cs : List Char) : Bool :=
  letterCount .red cs == 1 && letterCount .green cs == 1 && letterCount .blue cs == 1 &&
    (extraOk || cs.all fun ch => (channelOf ch).isSome)

/-- The scan of R74: the k-th character that names a channel gives that channel offset k. -/
def orderScan : List Char → BitVec 2 → ChannelMap → ChannelMap
  | [], _, m => m
  | ch :: cs, k, m =>
    match channelOf ch with
    | some c => orderScan cs (k + 1) (m.setOff c (k + 1))
    | none => orderScan cs k m

/-- The map a channel-order argument gives: a valid string its scan, anything else the default
(R74, R75, R193). -/
def orderMap (extraOk : Bool) : Option (List Char) → ChannelMap
  | none => ChannelMap.standard
  | some cs => if orderValid extraOk cs then orderScan cs 0 ChannelMap.standard else ChannelMap.standard

/-- The wheel formula of R151, the spec's default (D11; notes/assumptions/17). -/
def wheelFormula (position : Byte) : Packed :=
  let p := position.toNat
  if p < 85 then packColour (BitVec.ofNat 8 (3 * p)) (BitVec.ofNat 8 (255 - 3 * p)) 0
  else if p < 170 then
    packColour (BitVec.ofNat 8 (255 - 3 * (p - 85))) 0 (BitVec.ofNat 8 (3 * (p - 85)))
  else packColour 0 (BitVec.ofNat 8 (3 * (p - 170))) (BitVec.ofNat 8 (255 - 3 * (p - 170)))

/-- `wheel(position)` of this implementation (R7, R150, R151). -/
def wheelOf (cfg : Config) (position : Byte) : Packed :=
  match cfg.wheelTable with
  | none => wheelFormula position
  | some t => t.get position.toFin

/-- How far two channel values lie apart. -/
def channelDistance (x y : Byte) : Nat := (x.toNat - y.toNat) + (y.toNat - x.toNat)

/-- Two packed colours are at most one quantization step apart: 3 in every channel (R150, R152;
notes/assumptions/17). -/
def closeColours (x y : Packed) : Bool :=
  decide (channelDistance (Packed.red x) (Packed.red y) ≤ 3) &&
    decide (channelDistance (Packed.green x) (Packed.green y) ≤ 3) &&
      decide (channelDistance (Packed.blue x) (Packed.blue y) ≤ 3)

/-- A band of `w` over the positions `first .. first + len` that runs from the hue of channel `c` to the hue
of channel `d` (R150; notes/assumptions/17): the third channel `e` is never above the other two, `c`
never rises and `d` never falls, and at either end the hue is pure to within one quantization step. -/
abbrev WheelBand (w : Nat → Packed) (first len : Nat) (c d e : Packed → Byte) : Prop :=
  (∀ k < len + 1, (e (w (first + k))).toNat ≤ (c (w (first + k))).toNat ∧
    (e (w (first + k))).toNat ≤ (d (w (first + k))).toNat) ∧
  (∀ k < len, (c (w (first + k + 1))).toNat ≤ (c (w (first + k))).toNat ∧
    (d (w (first + k))).toNat ≤ (d (w (first + k + 1))).toNat) ∧
  ((d (w first)).toNat < (c (w first)).toNat ∧ (d (w first)).toNat ≤ (e (w first)).toNat + 3) ∧
  (c (w (first + len))).toNat < (d (w (first + len))).toNat ∧
    (c (w (first + len))).toNat ≤ (e (w (first + len))).toNat + 3

/-- The law R150 puts on `wheel`: three bands, Green to Red, Red to Blue and Blue to Green, continuous at the
two inner boundaries (the third band is 170..255, C4). -/
abbrev Config.lawful (cfg : Config) : Prop :=
  WheelBand (fun p => wheelOf cfg (BitVec.ofNat 8 p)) 0 84 Packed.green Packed.red Packed.blue ∧
    WheelBand (fun p => wheelOf cfg (BitVec.ofNat 8 p)) 85 84 Packed.red Packed.blue Packed.green ∧
      WheelBand (fun p => wheelOf cfg (BitVec.ofNat 8 p)) 170 85 Packed.blue Packed.green Packed.red ∧
        closeColours (wheelOf cfg 84) (wheelOf cfg 85) = true ∧
          closeColours (wheelOf cfg 169) (wheelOf cfg 170) = true

/-- The numeric code of `err` on the response port (R173). -/
def Err.code : Err → Nat
  | .ok => 0
  | .sendFailure => 1

/-- The numeric code of `construct_err` (R173). -/
def ConstructErr.code : ConstructErr → Nat
  | .constructed => 0
  | .typeError => 1

/-- The construction arguments of the short form `construct(n, send)` (R84). -/
def constructDefaults (n : Word) (send : SendArg) : ConstructArgs := ⟨n, send, none, none⟩

end Sys2Proof.Machine
end

