-- ==== Sys2Proof/Machine/Flags.lean ====
section
/-! DEFINITION. The block has no flags, condition codes or sticky bits (R22); the only conditions its
operations compute are these predicates over operands and `N`, which are not state. -/

namespace Sys2Proof.Machine

/-- `in_range(index)` (R100). -/
def inRange (n : Nat) (index : Int) : Bool := decide (0 ≤ index) && decide (index < n)

/-- `range_ok(start, end_exclusive)`, with the strict end bound (R101, C1). -/
def rangeOk (n : Nat) (start endExclusive : Int) : Bool :=
  decide (0 ≤ start) && decide (endExclusive < n) && decide (start ≤ endExclusive)

/-- `query_ok(index)`, strict (R140, C2). -/
def queryOk (n : Nat) (index : Int) : Bool := decide (0 ≤ index) && decide (index < n)

/-- The one index that only the inclusive bound of the original accepts (R140, U1). -/
def queryPastEnd (cfg : Config) (n : Nat) (index : Int) : Bool :=
  cfg.queryBoundInclusive && decide (index = n)

end Sys2Proof.Machine
end

