-- ==== Sys2Proof/Machine/Ops.lean ====
section
/-! DEFINITION. The named operations: the buffer's bytes and records (`MemRead`, `MemWrite`,
`WriteColour`, `ReadColour`, `WritePixel`), the response port, the sink, and ending a command in the
one error there is, `SendFailure` (R171, R178). -/

namespace Sys2Proof.Machine

/-! ## The buffer as canonical data -/

/-- What construction leaves at an offset, which is what an unlisted offset reads as: the marker
pattern at every fourth byte, zero elsewhere (R195). -/
def resetByte (a : Nat) : Byte := if a % 4 = 0 then 0xE0#8 else 0x00#8

/-- The byte at an offset. -/
def Memory.read : Memory → Nat → Byte
  | [], a => resetByte a
  | (k, v) :: m, a => if k = a then v else Memory.read m a

/-- Write one byte, keeping the canonical form. -/
def Memory.write : Memory → Nat → Byte → Memory
  | [], a, v => if v = resetByte a then [] else [(a, v)]
  | (k, w) :: m, a, v =>
    if a < k then (if v = resetByte a then (k, w) :: m else (a, v) :: (k, w) :: m)
    else if a = k then (if v = resetByte a then m else (a, v) :: m)
    else (k, w) :: Memory.write m a v

/-- Write consecutive bytes, the lowest offset first. -/
def Memory.writeBytes : Memory → Nat → List Byte → Memory
  | m, _, [] => m
  | m, a, v :: vs => Memory.writeBytes (Memory.write m a v) (a + 1) vs

/-- The canonical form: offsets strictly rising, no pair that holds the reset byte. -/
def Memory.wf : Memory → Bool
  | [] => true
  | (k, v) :: m => (v != resetByte k) && (m.all fun c => decide (k < c.1)) && Memory.wf m

/-! ## Bounds-checked access (R40, R41, R50) -/

/-- The buffer's length, `4 * N` (R23, R26). -/
def Strip.size (t : Strip) : Nat := 4 * t.pixelCount

/-- `MemRead(a, n)`, defined only inside the buffer (00_scope.md section 5). -/
def Strip.memRead (t : Strip) (a n : Nat) : Option (List Byte) :=
  if a + n ≤ t.size then some ((List.range n).map fun j => Memory.read t.buf (a + j)) else none

/-- `MemWrite(a, n, v)`, defined only inside the buffer (00_scope.md section 5). -/
def Strip.memWrite (t : Strip) (a : Nat) (bs : List Byte) : Option Strip :=
  if a + bs.length ≤ t.size then some { t with buf := Memory.writeBytes t.buf a bs } else none

/-- `buf[a]` (00_scope.md section 5). -/
def Strip.readByte (t : Strip) (a : Nat) : Option Byte :=
  if a < t.size then some (Memory.read t.buf a) else none

/-- `buf[a] <- v` (00_scope.md section 5). -/
def Strip.writeByte (t : Strip) (a : Nat) (v : Byte) : Option Strip :=
  if a < t.size then some { t with buf := Memory.write t.buf a v } else none

/-! ## Pixel records -/

/-- The offset of a logical channel's byte in pixel `i`: the channel-order multiplexer (R42). -/
def Strip.colourOffset (t : Strip) (i : Nat) (c : Channel) : Nat := 4 * i + (t.channelMap.off c).toNat

/-- `WriteColour(i, r, g, b)` (R42). -/
def Strip.writeColour (t : Strip) (i : Nat) (r g b : Byte) : Option Strip :=
  (t.writeByte (t.colourOffset i .red) r).bind fun t1 =>
    (t1.writeByte (t.colourOffset i .green) g).bind fun t2 =>
      t2.writeByte (t.colourOffset i .blue) b

/-- `ReadColour(i)` (R42). -/
def Strip.readColour (t : Strip) (i : Nat) : Option (Byte × Byte × Byte) :=
  (t.readByte (t.colourOffset i .red)).bind fun r =>
    (t.readByte (t.colourOffset i .green)).bind fun g =>
      (t.readByte (t.colourOffset i .blue)).map fun b => (r, g, b)

/-- `WritePixel(i, r, g, b, br)` (R110). -/
def Strip.writePixel (t : Strip) (i : Nat) (r g b : Byte) (br : Int) : Option Strip :=
  (t.writeByte (4 * i) (markerByte t.globalBrightness br)).bind fun t1 => t1.writeColour i r g b

/-- `WritePixel` on the `n` pixels from `start` on (R104, R106). -/
def Strip.fillPixels (t : Strip) (start : Nat) (r g b : Byte) (br : Int) : Nat → Option Strip
  | 0 => some t
  | n + 1 => (t.fillPixels start r g b br n).bind fun t1 => t1.writePixel (start + n) r g b br

/-- Zero the three colour bytes of the first `n` pixels (R109). -/
def Strip.clearPixels (t : Strip) : Nat → Option Strip
  | 0 => some t
  | n + 1 => (t.clearPixels n).bind fun t1 => t1.memWrite (4 * n + 1) [0, 0, 0]

/-- The first `n` records of `t` replaced by the records of `old` that `src` names (R122). -/
def Strip.moveRecords (old t : Strip) (src : Nat → Nat) : Nat → Option Strip
  | 0 => some t
  | n + 1 =>
    (Strip.moveRecords old t src n).bind fun t1 =>
      (old.memRead (4 * src n) 4).bind fun record => t1.memWrite (4 * n) record

/-! ## The ports -/

/-- One response to the host (R80). -/
def State.respond (s : State) (err : Err) (p : Payload) : State :=
  { s with replies := s.replies ++ [.response ⟨err, p⟩] }

/-- The result of a construction, reported to the host (R173). -/
def State.reportConstruction (s : State) (e : ConstructErr) : State :=
  { s with replies := s.replies ++ [.construction e] }

/-- The strip replaced. -/
def State.setStrip (s : State) (t : Option Strip) : State := { s with strip := t }

/-- `emit Frame(bytes)`: one call to the sink with the whole frame (R132). -/
def State.emitFrame (s : State) (f : List Byte) : State := { s with frames := s.frames ++ [f] }

/-- The raw bytes `dump_array` renders, at the diagnostic output (R153). -/
def State.emitDump (s : State) (bs : List Byte) : State := { s with dumps := s.dumps ++ [bs] }

/-- One free value is drawn: the counter moves on. -/
def State.drawFree (s : State) : State := { s with freeCount := s.freeCount + 1 }

/-- The sink's answer to the coming send call: the next one the environment has fixed, else a free
value (R130, D23). -/
def State.sinkAnswer (s : State) : Bool :=
  match s.sinkAnswers with
  | [] => Config.sinkAnswer s.freeCount
  | ok :: _ => ok

/-- The state once the sink's answer has been taken. -/
def State.takeSinkAnswer (s : State) : State :=
  match s.sinkAnswers with
  | [] => s.drawFree
  | _ :: rest => { s with sinkAnswers := rest }

/-! ## How a command ends -/

/-- An outcome of this machine. -/
abbrev Result := Host.Outcome State Fault Refusal

/-- The command completes with `err = OK` and this payload (R80). -/
def State.answer (s : State) (p : Payload) : Result := .next (s.respond .ok p)

/-- The silent no-op: nothing changes, and the response does not tell (R22, R80, R174). -/
def State.noOp (s : State) : Result := s.answer .none

/-- Ending a command in an error: the error is the response, nothing is saved, nothing else changes and
control goes nowhere (R171, R178). There is no return from it (R180). -/
def State.raiseSendFailure (s : State) : State := s.respond .sendFailure .none

/-- A mutation's end: the new strip with an `OK` response (R80), or the fault of an access outside the
buffer. -/
def State.commit (s : State) : Option Strip → Result
  | some t => .next ((s.setStrip (some t)).respond .ok .none)
  | none => .fault .noSuchOffset

/-- A command acts on the strip; without one it has no meaning (R198, U5). -/
def State.withStrip (s : State) (f : Strip → Result) : Result :=
  match s.strip with
  | some t => f t
  | none => .refused .noStrip

end Sys2Proof.Machine
end

