-- ==== Sys2Proof/Machine/Construct.lean ====
section
/-! DEFINITION. Construction, the reset of this hardware (spec/70_reset_and_hazards.md section 1). -/

namespace Sys2Proof.Machine

/-- `PIXEL_COUNT` of a raw `pixel_count`: a negative count gives the empty strip (R191). -/
def constructedCount (n : Word) : Word := if n.toInt < 0 then 0 else n

/-- `GB` of a raw `global_brightness`: clamped, 31 where it is omitted (R192). -/
def constructedBrightness : Option Word → BitVec 5
  | none => BitVec.ofNat 5 maxBrightness
  | some gb => BitVec.ofNat 5 (clamp31 gb.toInt)

/-- The strip construction makes (R191..R196). The buffer lists nothing: every byte is the one
`resetByte` gives (R195). -/
def constructStrip (cfg : Config) (args : ConstructArgs) (send : Bool) : Strip where
  count := constructedCount args.pixelCount
  globalBrightness := constructedBrightness args.globalBrightness
  channelMap := orderMap cfg.orderExtraCharsAccepted args.channelOrder
  send := send
  buf := []

/-- Construction with a `send` argument of the right type: a new strip that keeps nothing of an old one
(R196, R207), unless the count is above `NMAX` (D27). -/
def constructWith (args : ConstructArgs) (send : Bool) (s : State) : Result :=
  if s.cfg.admits (constructedCount args.pixelCount).toNat then
    .next ((s.setStrip (some (constructStrip s.cfg args send))).reportConstruction .constructed)
  else .refused .aboveNmax

/-- `construct` (R196). The type check of `send` comes first and does not depend on the other arguments
(R177); when it fails no strip exists (R172, R197). -/
def execConstruct (args : ConstructArgs) (s : State) : Result :=
  match args.send with
  | .other => .next ((s.setStrip none).reportConstruction .typeError)
  | .callable => constructWith args true s
  | .absent => constructWith args false s

end Sys2Proof.Machine
end

