-- ==== Sys2Proof/Machine/Mutation.lean ====
section
/-! DEFINITION. Per-pixel, range and whole-strip mutation (spec/40_mutation.md). -/

namespace Sys2Proof.Machine

/-- The shared body of the two single-pixel sets (R102, R103). -/
def setOne (index : Int) (r g b : Byte) (br : Int) (s : State) : Result :=
  s.withStrip fun t =>
    if inRange t.pixelCount index then s.commit (t.writePixel index.toNat r g b br) else s.noOp

/-- The shared body of the two range sets (R104, R105). -/
def setMany (start endExclusive : Int) (r g b : Byte) (br : Int) (s : State) : Result :=
  s.withStrip fun t =>
    if rangeOk t.pixelCount start endExclusive then
      s.commit (t.fillPixels start.toNat r g b br (endExclusive - start).toNat)
    else s.noOp

/-- The shared body of the two whole-strip sets (R106, R107). -/
def setEvery (r g b : Byte) (br : Int) (s : State) : Result :=
  s.withStrip fun t => s.commit (t.fillPixels 0 r g b br t.pixelCount)

/-- `set_pixel` (R102). -/
def execSetPixel (index : Int) (r g b : Byte) (brightness : Int) (s : State) : Result :=
  setOne index r g b brightness s

/-- `set_pixel_by_packed_rgb` (R103). -/
def execSetPixelByPackedRgb (index rgb24 brightness : Int) (s : State) : Result :=
  let w := packedOperand rgb24
  setOne index (Packed.red w) (Packed.green w) (Packed.blue w) brightness s

/-- `set_range` (R104). -/
def execSetRange (start endExclusive : Int) (r g b : Byte) (brightness : Int) (s : State) : Result :=
  setMany start endExclusive r g b brightness s

/-- `set_range_by_packed_rgb` (R105). -/
def execSetRangeByPackedRgb (start endExclusive rgb24 brightness : Int) (s : State) : Result :=
  let w := packedOperand rgb24
  setMany start endExclusive (Packed.red w) (Packed.green w) (Packed.blue w) brightness s

/-- `set_all` (R106). -/
def execSetAll (r g b : Byte) (brightness : Int) (s : State) : Result :=
  setEvery r g b brightness s

/-- `set_all_by_packed_rgb` (R107). -/
def execSetAllByPackedRgb (rgb24 brightness : Int) (s : State) : Result :=
  let w := packedOperand rgb24
  setEvery (Packed.red w) (Packed.green w) (Packed.blue w) brightness s

/-- `clear_strip` (R109). -/
def execClearStrip (s : State) : Result :=
  s.withStrip fun t => s.commit (t.clearPixels t.pixelCount)

end Sys2Proof.Machine
end

