-- ==== Sys2Proof/Machine/Queries.lean ====
section
/-! DEFINITION. Pixel queries, pure helpers, the debug dump and the property reads
(spec/43_queries.md). -/

namespace Sys2Proof.Machine

/-- The shared body of the three pixel queries (R140..R143): the logical colour of the pixel in the given
format, or the absent sentinel. Under `QUERY_BOUND_INCLUSIVE` the result at `index == N` is a free
value (U1). -/
def queryPixel (format : Byte → Byte → Byte → Payload) (index : Int) (s : State) : Result :=
  s.withStrip fun t =>
    if queryOk t.pixelCount index then
      match t.readColour index.toNat with
      | some (r, g, b) => s.answer (format r g b)
      | none => .fault .noSuchOffset
    else if queryPastEnd s.cfg t.pixelCount index then
      let w := Config.freeColour s.freeCount
      s.drawFree.answer (format (Packed.red w) (Packed.green w) (Packed.blue w))
    else s.answer .absent

/-- `get_pixel_color_str` (R141). -/
def execGetPixelColorStr (index : Int) (s : State) : Result := queryPixel colourString index s

/-- `get_pixel_color_packed` (R142). -/
def execGetPixelColorPacked (index : Int) (s : State) : Result := queryPixel colourPacked index s

/-- `get_pixel_color_tuple` (R143). -/
def execGetPixelColorTuple (index : Int) (s : State) : Result := queryPixel colourTriple index s

/-- `combine_color` (R145). -/
def execCombineColor (r g b : Byte) (s : State) : Result :=
  s.withStrip fun _ => s.answer (.int (packColour r g b).toNat)

/-- `wheel` (R150, R151). -/
def execWheel (position : Byte) (s : State) : Result :=
  s.withStrip fun _ => s.answer (.int (wheelOf s.cfg position).toNat)

/-- `dump_array` (R153): the raw bytes go to the diagnostic output, in buffer order; the text is left
out (D16). -/
def execDumpArray (s : State) : Result :=
  s.withStrip fun t =>
    match t.memRead 0 t.size with
    | some bytes => (s.emitDump bytes).answer .none
    | none => .fault .noSuchOffset

/-- `get_pixel_count` (R154). -/
def execGetPixelCount (s : State) : Result :=
  s.withStrip fun t => s.answer (.int t.pixelCount)

/-- `get_global_brightness` (R155). -/
def execGetGlobalBrightness (s : State) : Result :=
  s.withStrip fun t => s.answer (.int t.globalBrightness.toNat)

/-- `get_channel_order` (R156). -/
def execGetChannelOrder (s : State) : Result :=
  s.withStrip fun t =>
    s.answer (.triple t.channelMap.offR.toNat t.channelMap.offG.toNat t.channelMap.offB.toNat)

/-- `get_send` (R157). -/
def execGetSend (s : State) : Result :=
  s.withStrip fun t => s.answer (.bool t.send)

/-- `get_max_brightness` (R158). -/
def execGetMaxBrightness (s : State) : Result :=
  s.withStrip fun _ => s.answer (.int maxBrightness)

end Sys2Proof.Machine
end

