-- ==== Sys2Proof/Machine/Rotation.lean ====
section
/-! DEFINITION. Rotation (spec/41_rotation.md): the result of R122, and the algorithm of R125 beside it. -/

namespace Sys2Proof.Machine

/-- The old index of the record that arrives at index `i`, for a reduced amount `k` (R122). -/
def rotateSource (towardLower : Bool) (n k i : Nat) : Nat :=
  if towardLower then (i + k) % n else floorMod ((i : Int) - (k : Int)) n

/-- `rotate` (R121, R122). -/
def execRotate (positions : Int) (s : State) : Result :=
  s.withStrip fun t =>
    if t.pixelCount ≤ 1 then s.noOp
    else
      let k := floorMod positions t.pixelCount
      if k = 0 then s.noOp
      else s.commit
        (Strip.moveRecords t t (rotateSource s.cfg.rotPositiveTowardLower t.pixelCount k) t.pixelCount)

/-- The block moves of R125, step 5, on the buffer's bytes: `m` records wrap around, toward lower or
toward higher indices. -/
def blockMove (towardLower : Bool) (n m : Nat) (bytes : List Byte) : List Byte :=
  if towardLower then bytes.drop (4 * m) ++ bytes.take (4 * m)
  else bytes.drop (4 * (n - m)) ++ bytes.take (4 * (n - m))

/-- Steps 3 to 5 of R125 for a reduced amount `k`: the smaller of the two equivalent rotations. Not what
`rotate` is defined by; it is stated to give the same buffer. -/
def minimalWorkRotate (towardLower : Bool) (n k : Nat) (bytes : List Byte) : List Byte :=
  if n < 2 * k then blockMove (!towardLower) n (n - k) bytes else blockMove towardLower n k bytes

end Sys2Proof.Machine
end

