-- ==== Sys2Proof/Machine/Show.lean ====
section
/-! DEFINITION. Frame serialization (spec/42_show.md). -/

namespace Sys2Proof.Machine

/-- How `show` ends once its one call to the sink has been made (R130, R133). -/
def showResponse (ok : Bool) (s : State) : State :=
  if ok then s.respond .ok .none else s.raiseSendFailure

/-- `show` (R130): a no-op without a send capability; else one frame to the sink, and the sink's answer
decides the response. The strip is not changed (R134). -/
def execShowFrame (s : State) : Result :=
  s.withStrip fun t =>
    if t.send then
      match t.memRead 0 t.size with
      | some bytes =>
        .next (showResponse s.sinkAnswer (s.takeSinkAnswer.emitFrame (frameOf t.pixelCount bytes)))
      | none => .fault .noSuchOffset
    else s.noOp

end Sys2Proof.Machine
end

