-- ==== Sys2Proof/Machine/Dispatch.lean ====
section
/-! DEFINITION. One arm per operation (R78), each one call of its meaning. -/

namespace Sys2Proof.Machine

/-- What one operation does (spec/40_mutation.md to spec/43_queries.md). -/
def exec (i : Instr) (s : State) : Host.Outcome State Fault Refusal :=
  match i with
  | .setPixel index r g b brightness => Sys2Proof.Machine.execSetPixel index r g b brightness s
  | .setPixelByPackedRgb index rgb24 brightness => Sys2Proof.Machine.execSetPixelByPackedRgb index rgb24 brightness s
  | .setRange start endExclusive r g b brightness => Sys2Proof.Machine.execSetRange start endExclusive r g b brightness s
  | .setRangeByPackedRgb start endExclusive rgb24 brightness => Sys2Proof.Machine.execSetRangeByPackedRgb start endExclusive rgb24 brightness s
  | .setAll r g b brightness => Sys2Proof.Machine.execSetAll r g b brightness s
  | .setAllByPackedRgb rgb24 brightness => Sys2Proof.Machine.execSetAllByPackedRgb rgb24 brightness s
  | .clearStrip => Sys2Proof.Machine.execClearStrip s
  | .rotate positions => Sys2Proof.Machine.execRotate positions s
  | .showFrame => Sys2Proof.Machine.execShowFrame s
  | .getPixelColorStr index => Sys2Proof.Machine.execGetPixelColorStr index s
  | .getPixelColorPacked index => Sys2Proof.Machine.execGetPixelColorPacked index s
  | .getPixelColorTuple index => Sys2Proof.Machine.execGetPixelColorTuple index s
  | .combineColor r g b => Sys2Proof.Machine.execCombineColor r g b s
  | .wheel position => Sys2Proof.Machine.execWheel position s
  | .dumpArray => Sys2Proof.Machine.execDumpArray s
  | .getPixelCount => Sys2Proof.Machine.execGetPixelCount s
  | .getGlobalBrightness => Sys2Proof.Machine.execGetGlobalBrightness s
  | .getChannelOrder => Sys2Proof.Machine.execGetChannelOrder s
  | .getSend => Sys2Proof.Machine.execGetSend s
  | .getMaxBrightness => Sys2Proof.Machine.execGetMaxBrightness s

end Sys2Proof.Machine
end

