-- ==== Sys2Proof/Machine/Step.lean ====
section
/-! DEFINITION. One step: the block takes the host's oldest pending input and executes it to completion
(R4, R21, R47, R51). -/

namespace Sys2Proof.Machine

/-- The machine's step. With nothing pending the block is idle and keeps all its state (R185). A reserved
`op` is refused (R83). -/
def step (s : State) : Host.Outcome State Fault Refusal :=
  match s.inbox with
  | [] => .next s
  | .construct args :: rest => execConstruct args { s with inbox := rest }
  | .command c :: rest =>
    match decode c with
    | .ok i => exec i { s with inbox := rest }
    | .error (.reservedOp op) => .refused (.reservedOp op)

/-- The host issues, as its next command, the one whose word has the low `nbits` bits of `w`
(notes/assumptions/10). -/
def State.withFetchWord (s : State) (nbits w : Nat) : State :=
  { s with inbox := .command (tableCommand nbits w) :: s.inbox }

end Sys2Proof.Machine
end

