-- ==== Sys2Proof/Machine/Assembler.lean ====
section
/-! DEFINITION. The textual form of a command and its pseudo-forms (R84): the call syntax
`mnemonic(operand, ...)`, with the defaults the assembler supplies before a command reaches the port.
No part of `step`; the places where a space may stand are the model's (notes/assumptions/22). -/

namespace Sys2Proof.Machine

/-- The mnemonics in the order of R81, each with its `op`. -/
def mnemonicTable : List (List Char × Nat) :=
  [("set_pixel".toList, 0x01), ("set_pixel_by_packed_rgb".toList, 0x02), ("set_range".toList, 0x03),
   ("set_range_by_packed_rgb".toList, 0x04), ("set_all".toList, 0x05),
   ("set_all_by_packed_rgb".toList, 0x06), ("clear_strip".toList, 0x07)] ++
  [("rotate".toList, 0x08), ("show".toList, 0x09), ("get_pixel_color_str".toList, 0x0A),
   ("get_pixel_color_packed".toList, 0x0B), ("get_pixel_color_tuple".toList, 0x0C),
   ("combine_color".toList, 0x0D), ("wheel".toList, 0x0E), ("dump_array".toList, 0x0F)] ++
  [("get_pixel_count".toList, 0x10), ("get_global_brightness".toList, 0x11),
   ("get_channel_order".toList, 0x12), ("get_send".toList, 0x13), ("get_max_brightness".toList, 0x14)]

/-- The value of a digit. -/
def digitValue (c : Char) : Option Nat :=
  let n := c.toNat
  if 48 ≤ n ∧ n ≤ 57 then some (n - 48)
  else if 65 ≤ n ∧ n ≤ 70 then some (n - 55)
  else if 97 ≤ n ∧ n ≤ 102 then some (n - 87)
  else none

/-- The digits of a number in a base, after the value so far. -/
def digitsFrom (base acc : Nat) : List Char → Option Nat
  | [] => some acc
  | c :: cs =>
    match digitValue c with
    | some d => if d < base then digitsFrom base (acc * base + d) cs else none
    | none => none

/-- A number with at least one digit. -/
def digits (base : Nat) (cs : List Char) : Option Nat :=
  if cs.isEmpty then none else digitsFrom base 0 cs

/-- A natural number in decimal, `0x` hexadecimal or `0b` binary (R84). -/
def parseNat : List Char → Option Nat
  | '0' :: 'x' :: cs => digits 16 cs
  | '0' :: 'b' :: cs => digits 2 cs
  | cs => digits 10 cs

/-- An integer operand; `MAX_BRIGHTNESS` may be written for 31 (R84). -/
def parseInt (cs : List Char) : Option Int :=
  if cs = "MAX_BRIGHTNESS".toList then some (Int.ofNat maxBrightness)
  else
    match cs with
    | '-' :: ds => (parseNat ds).map fun n => -(n : Int)
    | ds => (parseNat ds).map fun n => (n : Int)

/-- The parts of a text between commas. -/
def splitCommas : List Char → List (List Char)
  | [] => [[]]
  | c :: cs =>
    match splitCommas cs with
    | [] => [[c]]
    | p :: ps => if c = ',' then [] :: p :: ps else (c :: p) :: ps

/-- Every operand of the list read, or none. -/
def parseAll : List (List Char) → Option (List Int)
  | [] => some []
  | p :: ps => (parseInt p).bind fun x => (parseAll ps).map fun xs => x :: xs

/-- An 8-bit operand: a value outside 0..255 cannot be presented (R77, U8). -/
def byteOperand (x : Int) : Option Byte :=
  if 0 ≤ x ∧ x ≤ 255 then some (BitVec.ofInt 8 x) else none

/-- Three colour channels. -/
def colourOperands (r g b : Int) (k : Byte → Byte → Byte → Instr) : Option Instr :=
  (byteOperand r).bind fun r => (byteOperand g).bind fun g => (byteOperand b).map fun b => k r g b

/-- One operation from its `op` and its operands in the order of R78; a shorter list takes the defaults
of R84. -/
def assembleOp (op : Nat) (args : List Int) : Option Instr :=
  match op, args with
  | 0x01, [i, r, g, b] => colourOperands r g b fun r g b => .setPixel i r g b maxBrightness
  | 0x01, [i, r, g, b, br] => colourOperands r g b fun r g b => .setPixel i r g b br
  | 0x02, [i, v] => some (.setPixelByPackedRgb i v maxBrightness)
  | 0x02, [i, v, br] => some (.setPixelByPackedRgb i v br)
  | 0x03, [s, e, r, g, b] => colourOperands r g b fun r g b => .setRange s e r g b maxBrightness
  | 0x03, [s, e, r, g, b, br] => colourOperands r g b fun r g b => .setRange s e r g b br
  | 0x04, [s, e, v] => some (.setRangeByPackedRgb s e v maxBrightness)
  | 0x04, [s, e, v, br] => some (.setRangeByPackedRgb s e v br)
  | 0x05, [r, g, b] => colourOperands r g b fun r g b => .setAll r g b maxBrightness
  | 0x05, [r, g, b, br] => colourOperands r g b fun r g b => .setAll r g b br
  | 0x06, [v] => some (.setAllByPackedRgb v maxBrightness)
  | 0x06, [v, br] => some (.setAllByPackedRgb v br)
  | 0x07, [] => some .clearStrip
  | 0x08, [] => some (.rotate 1)
  | 0x08, [p] => some (.rotate p)
  | 0x09, [] => some .showFrame
  | 0x0A, [i] => some (.getPixelColorStr i)
  | 0x0B, [i] => some (.getPixelColorPacked i)
  | 0x0C, [i] => some (.getPixelColorTuple i)
  | 0x0D, [r, g, b] => colourOperands r g b .combineColor
  | 0x0E, [p] => (byteOperand p).map .wheel
  | 0x0F, [] => some .dumpArray
  | 0x10, [] => some .getPixelCount
  | 0x11, [] => some .getGlobalBrightness
  | 0x12, [] => some .getChannelOrder
  | 0x13, [] => some .getSend
  | 0x14, [] => some .getMaxBrightness
  | _, _ => none

/-- A text without the spaces around it. -/
def trimSpaces (cs : List Char) : List Char :=
  ((cs.dropWhile fun c => c == ' ').reverse.dropWhile fun c => c == ' ').reverse

/-- The operand texts inside `( ... )`. -/
def operandTexts (cs : List Char) : Option (List (List Char)) :=
  match cs with
  | '(' :: rest =>
    match rest.reverse with
    | ')' :: body =>
      if (trimSpaces body).isEmpty then some []
      else some ((splitCommas body.reverse).map trimSpaces)
    | _ => none
  | _ => none

/-- The name before the operands, and the operand texts. -/
def callParts (text : List Char) : Option (List Char × List (List Char)) :=
  let cs := trimSpaces text
  let name := cs.takeWhile fun c => c != '('
  (operandTexts (cs.drop name.length)).map fun ops => (name, ops)

/-- The operation one line of assembler text names, or none where it names no operation or an operand does
not fit its port (R84, D1). -/
def assemble (text : List Char) : Option Instr :=
  (callParts text).bind fun p =>
    (mnemonicTable.lookup p.1).bind fun op => (parseAll p.2).bind fun args =>
      (assembleOp op args).filter Instr.wf

/-- An integer at an `IW`-bit port (D1). -/
def portOperand (cs : List Char) : Option Word :=
  (parseInt cs).bind fun x => if fitsWord x then some (BitVec.ofInt 32 x) else none

/-- The `send` operand of `construct`: `none` for no capability, a number for a value that is neither a
callable nor "none", `sink` for a capability (95_test_vectors.md V-CONSTRUCT). DESIGN CHOICE, the spec
gives no form of this operand: a number is whatever `parseInt` reads, `MAX_BRIGHTNESS` too, and every
other text is a capability, the empty one of `construct(3,)` and a quoted one included
(notes/assumptions/22). -/
def sendOperand (cs : List Char) : SendArg :=
  if cs = "none".toList then .absent else if (parseInt cs).isSome then .other else .callable

/-- An order string between double quotes. -/
def quoted (cs : List Char) : Option (List Char) :=
  match cs with
  | '"' :: rest => if rest.getLast? = some '"' then some rest.dropLast else none
  | _ => none

/-- The construction event one line of assembler text names, with the defaults of R84 (R190). -/
def assembleConstruct (text : List Char) : Option ConstructArgs :=
  (callParts text).bind fun p =>
    if p.1 ≠ "construct".toList then none
    else
      match p.2 with
      | [n, send] => (portOperand n).map fun n => constructDefaults n (sendOperand send)
      | [n, send, gb] =>
        (portOperand n).bind fun n => (portOperand gb).map fun gb => ⟨n, sendOperand send, some gb, none⟩
      | [n, send, gb, order] =>
        (portOperand n).bind fun n => (portOperand gb).bind fun gb => (quoted order).map fun cs =>
          ⟨n, sendOperand send, some gb, some cs⟩
      | _ => none

end Sys2Proof.Machine
end

