-- ==== Sys2Proof/Safety.lean ====
section
/-! DEFINITION. What a reachable state satisfies (the invariants of R37, with the buffer's canonical form
and the bounds of the parameters), and the vocabulary the claims use to say which bytes an operation
writes and which it keeps. -/

namespace Sys2Proof.Machine

/-- Invariant CONFIG: the channel map is a bijection onto {1, 2, 3} (R29, R37). -/
def ChannelMap.bijective (m : ChannelMap) : Bool :=
  m.offR != 0 && m.offG != 0 && m.offB != 0 && m.offR != m.offG && m.offR != m.offB && m.offG != m.offB

/-- Invariant LENGTH: no listed byte lies outside the `4 * N` bytes (R26, R37). -/
def Strip.inBounds (t : Strip) : Bool := t.buf.all fun c => decide (c.1 < t.size)

/-- Invariant MARKER: every pixel's byte 0 has its top three bits set (R25, R37). -/
abbrev Strip.markersSet (t : Strip) : Prop :=
  ∀ i < t.pixelCount, (Memory.read t.buf (4 * i)).extractLsb' 5 3 = 0b111#3

/-- `PIXEL_COUNT` is never negative: its `IW`-bit register keeps the sign bit clear (R27, R33). -/
def Strip.countFits (t : Strip) : Bool := decide (t.pixelCount < 2 ^ 31)

/-- The invariants of one strip (R37), with the buffer's canonical form and the count's range (R33). -/
abbrev Strip.Inv (t : Strip) : Prop :=
  Memory.wf t.buf = true ∧ t.inBounds = true ∧ t.markersSet ∧ t.channelMap.bijective = true ∧
    t.countFits = true

/-- The invariant of the whole machine: lawful parameters, and a strip, if there is one, that satisfies
its invariants within `NMAX` (R33, R37). -/
abbrev State.Inv (s : State) : Prop :=
  Config.lawful s.cfg ∧
    match s.strip with
    | none => True
    | some t => t.Inv ∧ s.cfg.admits t.pixelCount = true

/-- A run is safe: no number of steps ends in a fault (R50, R170, R174). -/
def State.Safe (s : State) : Prop := ∀ n f, core.run n s ≠ .fault f

/-- Everything but the buffer is the same: `N`, `GB`, the channel map and `SEND` (R32). -/
def Strip.sameConfig (t t' : Strip) : Prop :=
  t'.pixelCount = t.pixelCount ∧ t'.globalBrightness = t.globalBrightness ∧
    t'.channelMap = t.channelMap ∧ t'.send = t.send

/-- The marker byte that brightness operand `br` leaves at global brightness `gb`, computed over the
integers: `0xE0 + floor(clamp(br) * gb / 31)` (R9, R60, R70). -/
def expectedMarker (gb : BitVec 5) (br : Int) : Byte :=
  BitVec.ofInt 8 (0xE0 + (max 0 (min 31 br)) * (gb.toNat : Int) / 31)

/-- Pixel `i` holds this colour and the marker of this brightness (R42, R110). -/
def Strip.pixelIs (t : Strip) (i : Nat) (r g b : Byte) (br : Int) : Prop :=
  t.readByte (4 * i) = some (expectedMarker t.globalBrightness br) ∧
    t.readByte (4 * i + t.channelMap.offR.toNat) = some r ∧
    t.readByte (4 * i + t.channelMap.offG.toNat) = some g ∧
    t.readByte (4 * i + t.channelMap.offB.toNat) = some b

/-- From `t` to `t'` exactly the pixels `lo .. hi - 1` are written, with this colour and brightness: all
their bytes read so, and every other byte and the configuration are as before (R48, R110, R111). -/
def PixelsWritten (t t' : Strip) (lo hi : Nat) (r g b : Byte) (br : Int) : Prop :=
  Strip.sameConfig t t' ∧ (∀ i, lo ≤ i → i < hi → t'.pixelIs i r g b br) ∧
    ∀ a, a < 4 * lo ∨ 4 * hi ≤ a → t'.readByte a = t.readByte a

/-- The state after a mutation that applied: the new strip and one `OK` response with no value, and
nothing else changed (R80). -/
def State.mutated (s : State) (t' : Strip) : State :=
  { s with strip := some t', replies := s.replies ++ [.response ⟨.ok, .none⟩] }

/-- The state after a command that only answers: one `OK` response, and nothing else changed (R80,
R159). -/
def State.answered (s : State) (p : Payload) : State :=
  { s with replies := s.replies ++ [.response ⟨.ok, p⟩] }

/-- The operations that change no byte of the strip: `show`, the queries, the helpers, the dump and the
property reads (R48, R134, R159). -/
def Instr.readsOnly : Instr → Bool
  | .setPixel _ _ _ _ _ => false
  | .setPixelByPackedRgb _ _ _ => false
  | .setRange _ _ _ _ _ _ => false
  | .setRangeByPackedRgb _ _ _ _ => false
  | .setAll _ _ _ _ => false
  | .setAllByPackedRgb _ _ => false
  | .clearStrip => false
  | .rotate _ => false
  | .showFrame => true
  | .getPixelColorStr _ => true
  | .getPixelColorPacked _ => true
  | .getPixelColorTuple _ => true
  | .combineColor _ _ _ => true
  | .wheel _ => true
  | .dumpArray => true
  | .getPixelCount => true
  | .getGlobalBrightness => true
  | .getChannelOrder => true
  | .getSend => true
  | .getMaxBrightness => true

/-- The operations that write values depending only on their operands and on the configuration: the six
sets and `clear_strip` (R49). -/
def Instr.idempotentWrite : Instr → Bool
  | .setPixel _ _ _ _ _ => true
  | .setPixelByPackedRgb _ _ _ => true
  | .setRange _ _ _ _ _ _ => true
  | .setRangeByPackedRgb _ _ _ _ => true
  | .setAll _ _ _ _ => true
  | .setAllByPackedRgb _ _ => true
  | .clearStrip => true
  | .rotate _ => false
  | .showFrame => false
  | .getPixelColorStr _ => false
  | .getPixelColorPacked _ => false
  | .getPixelColorTuple _ => false
  | .combineColor _ _ _ => false
  | .wheel _ => false
  | .dumpArray => false
  | .getPixelCount => false
  | .getGlobalBrightness => false
  | .getChannelOrder => false
  | .getSend => false
  | .getMaxBrightness => false

/-- The sixteen upper-case hexadecimal digits, written out (R66). -/
def upperHex (n : Nat) : Char := "0123456789ABCDEF".toList.getD n '?'

end Sys2Proof.Machine
end

