-- ==== Sys2Proof/Certificates/Slice0/Obligations.lean ====
section
/-! DEFINITION. The statements for the provers. Each docstring names the rule of spec/ it formalises. -/

open Sys2Proof Sys2Proof.Machine

/-! ## The command port and the step -/

/-- The oldest pending command, decoded, is what the step runs, and nothing is added around it but that the
command is taken from the inbox (R4, R21, R47). -/
def Obligations.StepRunsDecodedCommand : Prop :=
  ∀ (s : State) (c : Command) (rest : List HostEvent) (i : Instr),
    s.inbox = .command c :: rest → decode c = .ok i → step s = exec i { s with inbox := rest }

/-- With nothing pending the block is idle and keeps all its state (R185); a pending construction is
executed (R190). That construction can arrive as an input is the model's choice (log 10). -/
def Obligations.StepIdlesOrConstructs : Prop :=
  (∀ s : State, s.inbox = [] → step s = .next s) ∧
    ∀ (s : State) (args : ConstructArgs) (rest : List HostEvent),
      s.inbox = .construct args :: rest → step s = execConstruct args { s with inbox := rest }

/-- A step that completes takes exactly the oldest input: none is reordered, skipped or repeated (R21,
R51). -/
def Obligations.StepTakesOldestInput : Prop :=
  ∀ s s' : State, step s = .next s' → s'.inbox = s.inbox.tail

/-- A command is refused as reserved exactly when its `op` is 0x00 or 0x15..0x1F (R83, D4), whatever its
other fields and the state. -/
def Obligations.ReservedOpIsRefused : Prop :=
  ∀ (s : State) (c : Command) (rest : List HostEvent), s.inbox = .command c :: rest →
    ((c.op = 0 ∨ 0x15 ≤ c.op.toNat) ↔ step s = .refused (.reservedOp c.op))

/-- The `op` that selects each operation, and the fields its operands come from (R81, R82). -/
def Obligations.OpSelectsOperation : Prop :=
  ∀ c : Command,
    (c.op = 0x01 → decode c = .ok (.setPixel c.a.toInt c.cr c.cg c.cb c.br.toInt)) ∧
    (c.op = 0x02 → decode c = .ok (.setPixelByPackedRgb c.a.toInt c.rgb.toInt c.br.toInt)) ∧
    (c.op = 0x03 → decode c = .ok (.setRange c.a.toInt c.e.toInt c.cr c.cg c.cb c.br.toInt)) ∧
    (c.op = 0x04 → decode c = .ok (.setRangeByPackedRgb c.a.toInt c.e.toInt c.rgb.toInt c.br.toInt)) ∧
    (c.op = 0x05 → decode c = .ok (.setAll c.cr c.cg c.cb c.br.toInt)) ∧
    (c.op = 0x06 → decode c = .ok (.setAllByPackedRgb c.rgb.toInt c.br.toInt)) ∧
    (c.op = 0x07 → decode c = .ok .clearStrip) ∧
    (c.op = 0x08 → decode c = .ok (.rotate c.a.toInt)) ∧
    (c.op = 0x09 → decode c = .ok .showFrame) ∧
    (c.op = 0x0A → decode c = .ok (.getPixelColorStr c.a.toInt)) ∧
    (c.op = 0x0B → decode c = .ok (.getPixelColorPacked c.a.toInt)) ∧
    (c.op = 0x0C → decode c = .ok (.getPixelColorTuple c.a.toInt)) ∧
    (c.op = 0x0D → decode c = .ok (.combineColor c.cr c.cg c.cb)) ∧
    (c.op = 0x0E → decode c = .ok (.wheel c.pos)) ∧
    (c.op = 0x0F → decode c = .ok .dumpArray) ∧
    (c.op = 0x10 → decode c = .ok .getPixelCount) ∧
    (c.op = 0x11 → decode c = .ok .getGlobalBrightness) ∧
    (c.op = 0x12 → decode c = .ok .getChannelOrder) ∧
    (c.op = 0x13 → decode c = .ok .getSend) ∧
    (c.op = 0x14 → decode c = .ok .getMaxBrightness)

/-- Words written out field by field decode to the commands of the spec's programs P1 and P2; the places of
the fields in one word are the model's choice (log 2), the field values are the spec's. -/
def Obligations.WrittenOutWordsDecode : Prop :=
  decodeTableWord 165 (0x01 + 0x11 * 2 ^ 69 + 0x22 * 2 ^ 77 + 0x33 * 2 ^ 85 + 31 * 2 ^ 125) =
      some (.setPixel 0 0x11 0x22 0x33 31) ∧
    decodeTableWord 165 (0x03 + 1 * 2 ^ 5 + 4 * 2 ^ 37 + 0x10 * 2 ^ 69 + 0x20 * 2 ^ 77 + 0x30 * 2 ^ 85 +
      31 * 2 ^ 125) = some (.setRange 1 4 0x10 0x20 0x30 31) ∧
    decodeTableWord 165 (0x08 + 0xFFFFFFFF * 2 ^ 5) = some (.rotate (-1)) ∧
    decodeTableWord 165 (0x0E + 0xFF * 2 ^ 157) = some (.wheel 0xFF) ∧
    decodeTableWord 8 0x09 = some .showFrame ∧
    decodeTableWord 8 0x14 = some .getMaxBrightness ∧
    decodeTableWord 8 0x00 = none ∧ decodeTableWord 8 0x15 = none

/-- Every well-formed instruction survives its encoding, down to the one word of its record: no bit of an
operand is dropped (R79, R81; the word's layout is the model's, log 2). -/
def Obligations.DecodeEncodeRoundTrip : Prop :=
  ∀ i : Instr, i.wf = true → decode (Command.ofWord (Command.toWord (encode i))) = .ok i

/-- Whatever the record, what it decodes to is well formed: the port cannot carry an operand that does not
fit (R79, R82). -/
def Obligations.DecodedIsWellFormed : Prop :=
  ∀ (c : Command) (i : Instr), decode c = .ok i → i.wf = true

/-- The eight short forms of R84, each read from one text: brightness 31, positions 1, and for `construct`
brightness 31 and no order string (that default is what `constructedBrightness` gives an omitted
argument). How a text is written is the model's choice where R84 is silent (log 22). -/
def Obligations.AssemblerDefaults : Prop :=
  assemble "rotate()".toList = some (.rotate 1) ∧
    assemble "set_pixel(0, 0x11, 0x22, 0x33)".toList = some (.setPixel 0 0x11 0x22 0x33 31) ∧
    assemble "set_pixel_by_packed_rgb(0, 0xFF8040)".toList = some (.setPixelByPackedRgb 0 0xFF8040 31) ∧
    assemble "set_range(1, 4, 0x10, 0x20, 0x30)".toList = some (.setRange 1 4 0x10 0x20 0x30 31) ∧
    assemble "set_range_by_packed_rgb(0, 2, 0x0000FF)".toList = some (.setRangeByPackedRgb 0 2 0xFF 31) ∧
    assemble "set_all(255, 0, 0b1)".toList = some (.setAll 255 0 1 31) ∧
    assemble "set_all_by_packed_rgb(0x102030)".toList = some (.setAllByPackedRgb 0x102030 31) ∧
    assembleConstruct "construct(4, sink)".toList = some ⟨4, .callable, none, none⟩ ∧
    constructedBrightness none = 31

/-! ## Whole-machine rules -/

/-- The invariants LENGTH, MARKER and CONFIG, with the buffer's canonical form and the parameters' bounds,
are kept by every step from every state that satisfies them (R37). -/
def Obligations.StepKeepsInvariant : Prop :=
  ∀ s s' : State, s.Inv → step s = .next s' → s'.Inv

/-- The machine after reset satisfies the invariant (R37, R196; the reset inputs are the model's choice,
log 4). -/
def Obligations.ResetMeetsInvariant : Prop := State.reset.Inv

/-- No run from any state, of any length, ends in a fault: no operation reaches an offset outside the buffer
(R50), and the two errors of the block are reported, not faults (R170, R175). -/
def Obligations.NoRunFaults : Prop := ∀ s : State, State.Safe s

/-- Every operation on a strip, with whatever operands, completes with exactly one response (R80, R170,
R175). -/
def Obligations.EveryCommandAnswersOnce : Prop :=
  ∀ (i : Instr) (s : State) (t : Strip), s.strip = some t →
    ∃ s' r, exec i s = .next s' ∧ s'.replies = s.replies ++ [.response r]

/-- No operation changes `N`, `GB`, the channel map or `SEND`, makes a strip or removes one; none changes
the implementation's parameters or the pending inputs (R32). -/
def Obligations.ConfigurationIsReadOnly : Prop :=
  ∀ (i : Instr) (s s' : State) (t : Strip), s.strip = some t → exec i s = .next s' →
    ∃ t', s'.strip = some t' ∧ t'.pixelCount = t.pixelCount ∧
      t'.globalBrightness = t.globalBrightness ∧ t'.channelMap = t.channelMap ∧ t'.send = t.send ∧
      s'.cfg = s.cfg ∧ s'.inbox = s.inbox

/-- Only `show` emits a frame, asks the sink or reports an error: every other operation answers `OK` (R170,
R171, R176). -/
def Obligations.OnlyShowEmitsOrFails : Prop :=
  ∀ (i : Instr) (s s' : State), i ≠ .showFrame → exec i s = .next s' →
    s'.frames = s.frames ∧ s'.sinkAnswers = s.sinkAnswers ∧
      ∃ p, s'.replies = s.replies ++ [.response ⟨.ok, p⟩]

/-- `show`, the queries, the helpers, the dump and the property reads leave the strip as it was (R48, R49,
R134, R159). -/
def Obligations.ReadsKeepTheStrip : Prop :=
  ∀ (i : Instr) (s s' : State), Instr.readsOnly i = true → exec i s = .next s' → s'.strip = s.strip

/-- Issuing the same `set_*` or `clear_strip` twice leaves the strip of the first (R49). -/
def Obligations.WritesAreIdempotent : Prop :=
  ∀ (i : Instr) (s : State) (t : Strip), Instr.idempotentWrite i = true → s.strip = some t → t.Inv →
    ∃ s1 s2, exec i s = .next s1 ∧ exec i s1 = .next s2 ∧ s2.strip = s1.strip

/-- Without a strip every operation is refused, by name (R198, U5, D18). -/
def Obligations.CommandsNeedAStrip : Prop :=
  ∀ (i : Instr) (s : State), s.strip = none → exec i s = .refused .noStrip

/-! ## Construction -/

/-- What construction makes, for every raw input of the right type within `NMAX`: the count, the clamped
brightness, the map of the order string or the default map without one, the send flag, and the
invariants (R190..R194, R196); the buffer's bytes have their own statement. A negative count and a
negative brightness are the spec's decisions D2 and D9 (log 14), the order string's reading D5 (log 18). -/
def Obligations.ConstructBuildsStrip : Prop :=
  ∀ (s : State) (args : ConstructArgs), args.send ≠ .other →
    s.cfg.admits (max 0 args.pixelCount.toInt).toNat = true →
    ∃ t, execConstruct args s =
        .next { s with strip := some t, replies := s.replies ++ [.construction .constructed] } ∧
      (t.pixelCount : Int) = max 0 args.pixelCount.toInt ∧
      (t.globalBrightness.toNat : Int) = max 0 (min 31 ((args.globalBrightness.getD 31).toInt)) ∧
      t.channelMap = orderMap s.cfg.orderExtraCharsAccepted args.channelOrder ∧
      (args.channelOrder = none → t.channelMap = { offR := 3, offG := 2, offB := 1 }) ∧
      (t.send = true ↔ args.send = .callable) ∧ t.Inv

/-- "So every pixel starts as `E0 00 00 00`": the marker pattern at every fourth byte, zero elsewhere,
whatever the other inputs, and no byte outside `4 * N` (R195). -/
def Obligations.ConstructedBufferIsDark : Prop :=
  ∀ (s s' : State) (args : ConstructArgs) (t : Strip), args.send ≠ .other →
    execConstruct args s = .next s' → s'.strip = some t →
    ∀ a, t.readByte a =
      if a < 4 * t.pixelCount then some (if a % 4 = 0 then 0xE0 else 0x00) else none

/-- A `send` argument that is neither a callable nor "none" is a type error, whatever the other arguments,
and no strip exists afterwards (R172, R177, R197); that an earlier strip is gone as well is the model's
choice (log 11). -/
def Obligations.ConstructTypeErrorLeavesNoStrip : Prop :=
  ∀ (s : State) (args : ConstructArgs), args.send = .other →
    execConstruct args s =
      .next { s with strip := none, replies := s.replies ++ [.construction .typeError] }

/-- A count above `NMAX` is outside the model: the construction is refused (D27, U9). -/
def Obligations.ConstructAboveNmaxIsRefused : Prop :=
  ∀ (s : State) (args : ConstructArgs) (m : Nat), args.send ≠ .other → s.cfg.nmax = some m →
    (m : Int) < args.pixelCount.toInt → execConstruct args s = .refused .aboveNmax

/-- An order string: six letters name the channels and no other character names one; the k-th letter that
names a channel gives its channel offset k, if each channel is named exactly once (and, where extra
characters are not accepted, no other character stands there); anything else gives the default map
(R72..R75, D5; log 18). -/
def Obligations.OrderStringGivesRanks : Prop :=
  (∀ ch, (channelOf ch = some .red ↔ ch = 'R' ∨ ch = 'r') ∧
    (channelOf ch = some .green ↔ ch = 'G' ∨ ch = 'g') ∧
    (channelOf ch = some .blue ↔ ch = 'B' ∨ ch = 'b') ∧
    (channelOf ch = none ↔ ch ∉ ['R', 'r', 'G', 'g', 'B', 'b'])) ∧
  ∀ (extraOk : Bool) (cs : List Char),
    (∀ c1 c2 c3, cs.filterMap channelOf = [c1, c2, c3] → c1 ≠ c2 → c1 ≠ c3 → c2 ≠ c3 →
      (extraOk = true ∨ ∀ ch ∈ cs, channelOf ch ≠ none) →
      (orderMap extraOk (some cs)).off c1 = 1 ∧ (orderMap extraOk (some cs)).off c2 = 2 ∧
        (orderMap extraOk (some cs)).off c3 = 3) ∧
    ((∃ c, (cs.filterMap channelOf).count c ≠ 1) →
      orderMap extraOk (some cs) = { offR := 3, offG := 2, offB := 1 }) ∧
    (extraOk = false → (∃ ch ∈ cs, channelOf ch = none) →
      orderMap extraOk (some cs) = { offR := 3, offG := 2, offB := 1 }) ∧
    orderMap extraOk none = { offR := 3, offG := 2, offB := 1 }

/-- The machine after reset holds the strip that `construct(3, sink)` makes with every parameter at its
default, and has nothing pending and nothing emitted; the inputs are the model's choice (log 4). -/
def Obligations.ResetIsConstruction : Prop :=
  ∃ s' : State, execConstruct ⟨3, .callable, none, none⟩ { State.reset with strip := none } = .next s' ∧
    State.reset = { s' with replies := [] } ∧ State.reset.inbox = [] ∧ State.reset.frames = []

/-! ## Mutation -/

/-- `set_pixel`: inside `[0, N)` it writes all four bytes of the pixel and no other byte; outside it is a
silent no-op (R100, R110). For a negative brightness the clamp to 0 is the spec's decision D9 (log 14). -/
def Obligations.SetPixelWritesOnePixel : Prop :=
  ∀ (s : State) (t : Strip) (index : Int) (r g b : Byte) (br : Int), s.strip = some t → t.Inv →
    (0 ≤ index → index < t.pixelCount →
      ∃ t', exec (.setPixel index r g b br) s = .next (s.mutated t') ∧
        PixelsWritten t t' index.toNat (index.toNat + 1) r g b br) ∧
    (index < 0 ∨ (t.pixelCount : Int) ≤ index →
      exec (.setPixel index r g b br) s = .next (s.answered .none))

/-- `set_pixel_by_packed_rgb`: the same with the channels of the low 24 bits (R76, R103, R110); negative
`rgb24` by D10 (log 14). -/
def Obligations.SetPixelPackedWritesOnePixel : Prop :=
  ∀ (s : State) (t : Strip) (index v br : Int), s.strip = some t → t.Inv →
    (0 ≤ index → index < t.pixelCount →
      ∃ t', exec (.setPixelByPackedRgb index v br) s = .next (s.mutated t') ∧
        PixelsWritten t t' index.toNat (index.toNat + 1) (BitVec.ofInt 8 (v / 65536))
          (BitVec.ofInt 8 (v / 256)) (BitVec.ofInt 8 v) br) ∧
    (index < 0 ∨ (t.pixelCount : Int) ≤ index →
      exec (.setPixelByPackedRgb index v br) s = .next (s.answered .none))

/-- `set_range`: it proceeds only if `start ≥ 0`, `end_exclusive < N` and `start ≤ end_exclusive`, and then
writes exactly the pixels of `[start, end_exclusive)`; otherwise it is a silent no-op (R101, R110). -/
def Obligations.SetRangeWritesRange : Prop :=
  ∀ (s : State) (t : Strip) (start endEx : Int) (r g b : Byte) (br : Int), s.strip = some t → t.Inv →
    (0 ≤ start → endEx < t.pixelCount → start ≤ endEx →
      ∃ t', exec (.setRange start endEx r g b br) s = .next (s.mutated t') ∧
        PixelsWritten t t' start.toNat endEx.toNat r g b br) ∧
    (start < 0 ∨ (t.pixelCount : Int) ≤ endEx ∨ endEx < start →
      exec (.setRange start endEx r g b br) s = .next (s.answered .none))

/-- `set_range_by_packed_rgb`: the same with the channels of the low 24 bits (R76, R101, R105). -/
def Obligations.SetRangePackedWritesRange : Prop :=
  ∀ (s : State) (t : Strip) (start endEx v br : Int), s.strip = some t → t.Inv →
    (0 ≤ start → endEx < t.pixelCount → start ≤ endEx →
      ∃ t', exec (.setRangeByPackedRgb start endEx v br) s = .next (s.mutated t') ∧
        PixelsWritten t t' start.toNat endEx.toNat (BitVec.ofInt 8 (v / 65536))
          (BitVec.ofInt 8 (v / 256)) (BitVec.ofInt 8 v) br) ∧
    (start < 0 ∨ (t.pixelCount : Int) ≤ endEx ∨ endEx < start →
      exec (.setRangeByPackedRgb start endEx v br) s = .next (s.answered .none))

/-- A range operation never writes the last pixel, whatever its bounds (R101, R108, R203). -/
def Obligations.RangeNeverWritesLastPixel : Prop :=
  ∀ (s s' : State) (t t' : Strip) (i : Instr), s.strip = some t → t.Inv → 1 ≤ t.pixelCount →
    ((∃ st e r g b br, i = .setRange st e r g b br) ∨ ∃ st e v br, i = .setRangeByPackedRgb st e v br) →
    exec i s = .next s' → s'.strip = some t' →
    ∀ k, k < 4 → t'.readByte (4 * (t.pixelCount - 1) + k) = t.readByte (4 * (t.pixelCount - 1) + k)

/-- `set_all` writes every pixel, the last one too (R106, R110). -/
def Obligations.SetAllWritesEveryPixel : Prop :=
  ∀ (s : State) (t : Strip) (r g b : Byte) (br : Int), s.strip = some t → t.Inv →
    ∃ t', exec (.setAll r g b br) s = .next (s.mutated t') ∧
      PixelsWritten t t' 0 t.pixelCount r g b br

/-- `set_all_by_packed_rgb` writes every pixel with the channels of the low 24 bits (R76, R107). -/
def Obligations.SetAllPackedWritesEveryPixel : Prop :=
  ∀ (s : State) (t : Strip) (v br : Int), s.strip = some t → t.Inv →
    ∃ t', exec (.setAllByPackedRgb v br) s = .next (s.mutated t') ∧
      PixelsWritten t t' 0 t.pixelCount (BitVec.ofInt 8 (v / 65536)) (BitVec.ofInt 8 (v / 256))
        (BitVec.ofInt 8 v) br

/-- `clear_strip` sets every byte but the marker bytes to zero and leaves the markers (R109). That `op = 0x07`
selects it is the spec's decision D3 (log 3). -/
def Obligations.ClearStripKeepsMarkers : Prop :=
  (∀ c : Command, c.op = 0x07 → decode c = .ok .clearStrip) ∧
  ∀ (s : State) (t : Strip), s.strip = some t → t.Inv →
    ∃ t', exec .clearStrip s = .next (s.mutated t') ∧ Strip.sameConfig t t' ∧
      (∀ i, i < t.pixelCount → t'.readByte (4 * i) = t.readByte (4 * i) ∧
        t'.readByte (4 * i + 1) = some 0 ∧ t'.readByte (4 * i + 2) = some 0 ∧
        t'.readByte (4 * i + 3) = some 0) ∧
      ∀ a, 4 * t.pixelCount ≤ a → t'.readByte a = t.readByte a

/-- The brightness a `set_pixel` stores in the low five bits is `floor(clamp31(br) * GB / 31)`; so it lies in
`[0, GB]`, and it is the clamped operand for `GB = 31`, 0 for `GB = 0`, and `GB` for an operand of 31 or
more (R10, R60, R70, R111; a negative operand by D9, log 14). -/
def Obligations.StoredBrightnessIsScaled : Prop :=
  ∀ (s : State) (t : Strip) (index : Int) (r g b : Byte) (br : Int), s.strip = some t → t.Inv →
    0 ≤ index → index < t.pixelCount →
    ∃ t' m, exec (.setPixel index r g b br) s = .next (s.mutated t') ∧
      t'.readByte (4 * index.toNat) = some m ∧ m.extractLsb' 5 3 = 0b111#3 ∧
      ((m.extractLsb' 0 5).toNat : Int) = max 0 (min 31 br) * (t.globalBrightness.toNat : Int) / 31 ∧
      (m.extractLsb' 0 5).toNat ≤ t.globalBrightness.toNat ∧
      (t.globalBrightness = 31 → ((m.extractLsb' 0 5).toNat : Int) = max 0 (min 31 br)) ∧
      (t.globalBrightness = 0 → (m.extractLsb' 0 5).toNat = 0) ∧
      (31 ≤ br → m.extractLsb' 0 5 = t.globalBrightness)

/-- "`set_pixel(index, r,g,b,br)` followed by `get_pixel_color_tuple(index)` returns `(r,g,b)` exactly,
independent of channel order" (R111, S1). -/
def Obligations.SetThenGetReturnsColour : Prop :=
  ∀ (s : State) (t : Strip) (index : Int) (r g b : Byte) (br : Int), s.strip = some t → t.Inv →
    0 ≤ index → index < t.pixelCount →
    ∃ s1, exec (.setPixel index r g b br) s = .next s1 ∧
      exec (.getPixelColorTuple index) s1 = .next (s1.answered (.triple r.toNat g.toNat b.toNat))

/-! ## Rotation -/

/-- "`pixel_count ≤ 1` must be a safe no-op regardless of argument" (R121). -/
def Obligations.RotateSmallStripIsNoOp : Prop :=
  ∀ (s : State) (t : Strip) (p : Int), s.strip = some t → t.pixelCount ≤ 1 →
    exec (.rotate p) s = .next (s.answered .none)

/-- `rotate` moves whole records: with `k = p mod N`, record `i` becomes the old record `(i + k) mod N`, or
`(i - k) mod N` where a positive rotation goes toward higher indices (R122, R124, D6). -/
def Obligations.RotateMovesRecords : Prop :=
  ∀ (s : State) (t : Strip) (p : Int), s.strip = some t → t.Inv → 2 ≤ t.pixelCount →
    ∃ t', exec (.rotate p) s = .next (s.mutated t') ∧ Strip.sameConfig t t' ∧
      (∀ i j c, i < t.pixelCount → j < t.pixelCount → c < 4 →
        (j : Int) = (if s.cfg.rotPositiveTowardLower then (i : Int) + p else (i : Int) - p) %
          (t.pixelCount : Int) →
        t'.readByte (4 * i + c) = t.readByte (4 * j + c)) ∧
      ∀ a, 4 * t.pixelCount ≤ a → t'.readByte a = t.readByte a

/-- "`rotate(k)` followed by `rotate(-k)` (mod pixel_count) restores the original buffer exactly, for any `k`
and any `pixel_count > 0`", in either direction (R126, S2). -/
def Obligations.RotateBackRestores : Prop :=
  ∀ (s : State) (t : Strip) (k : Int), s.strip = some t → t.Inv →
    ∃ s1 s2, exec (.rotate k) s = .next s1 ∧ exec (.rotate (-k)) s1 = .next s2 ∧ s2.strip = some t

/-- `rotate(p)` then `rotate(q)` leaves the strip `rotate(p + q)` leaves, in either direction (R126). -/
def Obligations.RotationsAdd : Prop :=
  ∀ (s : State) (t : Strip) (p q : Int), s.strip = some t → t.Inv →
    ∃ s1 s2 s3, exec (.rotate p) s = .next s1 ∧ exec (.rotate q) s1 = .next s2 ∧
      exec (.rotate (p + q)) s = .next s3 ∧ s2.strip = s3.strip

/-- A rotation by a multiple of `N`, zero included, is a no-op (R122, R126, S3). -/
def Obligations.FullCycleRotationIsNoOp : Prop :=
  ∀ (s : State) (t : Strip) (m : Int), s.strip = some t →
    exec (.rotate (m * (t.pixelCount : Int))) s = .next (s.answered .none)

/-- The minimal-work algorithm of R125 (the smaller of the two equivalent rotations, by three block moves)
leaves the very buffer that `rotate` is defined to leave, in either direction (R122, R125). The block
moves are the spec's own expansion of one sentence of its source (log 15). -/
def Obligations.MinimalWorkRotationAgrees : Prop :=
  ∀ (s : State) (t : Strip) (p : Int), s.strip = some t → t.Inv → 2 ≤ t.pixelCount →
    ∃ bytes t', t.memRead 0 t.size = some bytes ∧ exec (.rotate p) s = .next (s.mutated t') ∧
      t'.memRead 0 t'.size = some (minimalWorkRotate s.cfg.rotPositiveTowardLower t.pixelCount
        (p % (t.pixelCount : Int)).toNat bytes)

/-! ## Show -/

/-- `show` with a send capability makes exactly one call to the sink, with the whole frame: four zero bytes,
the buffer verbatim, `ceil(N/16)` zero bytes (R63, R64, R131, R132). The response follows the sink's
answer, which is the environment's next one where it has fixed one and free otherwise (log 7); nothing
else changes. -/
def Obligations.ShowSendsOneWholeFrame : Prop :=
  ∀ (s : State) (t : Strip), s.strip = some t → t.send = true →
    ∃ (f : List Byte) (ok : Bool), exec .showFrame s = .next { s with
        frames := s.frames ++ [f]
        replies := s.replies ++ [.response ⟨if ok then .ok else .sendFailure, .none⟩]
        sinkAnswers := s.sinkAnswers.tail
        freeCount := s.freeCount + (if s.sinkAnswers = [] then 1 else 0) } ∧
      (∀ answer rest, s.sinkAnswers = answer :: rest → ok = answer) ∧
      f.length = 4 + 4 * t.pixelCount + (t.pixelCount + 15) / 16 ∧
      (∀ j, j < 4 → f[j]? = some 0) ∧
      (∀ j, j < 4 * t.pixelCount → f[4 + j]? = t.readByte j) ∧
      ∀ j, 4 + 4 * t.pixelCount ≤ j → j < f.length → f[j]? = some 0

/-- Without a send capability `show` is a no-op: nothing is emitted, the sink is not asked, no error is
possible (R130, R136, R177). -/
def Obligations.ShowWithoutSendIsNoOp : Prop :=
  ∀ (s : State) (t : Strip), s.strip = some t → t.send = false →
    exec .showFrame s = .next (s.answered .none)

/-- A failing sink: `show` reports `SEND_FAILURE` for that very call, the strip is as before, and the next
operation runs from it (R133, R171, R178..R180, D12). -/
def Obligations.FailedShowKeepsTheStrip : Prop :=
  ∀ (s : State) (t : Strip) (rest : List Bool) (i : Instr), s.strip = some t → t.send = true →
    s.sinkAnswers = false :: rest →
    ∃ s1 s2, exec .showFrame s = .next s1 ∧
      s1.replies = s.replies ++ [.response ⟨.sendFailure, .none⟩] ∧ s1.strip = some t ∧
      s1.sinkAnswers = rest ∧ exec i s1 = .next s2

/-- Two strips with equal `N` and equal buffers emit equal frames whatever their global brightness and
channel map (R135). -/
def Obligations.EqualBuffersEmitEqualFrames : Prop :=
  ∀ (s1 s2 : State) (t1 t2 : Strip), s1.strip = some t1 → s2.strip = some t2 →
    t1.send = true → t2.send = true → t1.pixelCount = t2.pixelCount →
    (∀ a, t1.readByte a = t2.readByte a) →
    ∃ f s1' s2', exec .showFrame s1 = .next s1' ∧ exec .showFrame s2 = .next s2' ∧
      s1'.frames = s1.frames ++ [f] ∧ s2'.frames = s2.frames ++ [f]

/-! ## Queries, helpers, dump and property reads -/

/-- `get_pixel_color_tuple`: the logical colour of a pixel, Red first, or the absent sentinel; an index of
`N` under `QUERY_BOUND_INCLUSIVE` has its own statement (R42, R140, R143). -/
def Obligations.QueryTupleReadsColour : Prop :=
  ∀ (s : State) (t : Strip) (index : Int), s.strip = some t →
    (0 ≤ index → index < t.pixelCount → ∃ r g b : Byte,
      t.readByte (4 * index.toNat + t.channelMap.offR.toNat) = some r ∧
      t.readByte (4 * index.toNat + t.channelMap.offG.toNat) = some g ∧
      t.readByte (4 * index.toNat + t.channelMap.offB.toNat) = some b ∧
      exec (.getPixelColorTuple index) s = .next (s.answered (.triple r.toNat g.toNat b.toNat))) ∧
    (index < 0 ∨ (t.pixelCount : Int) < index ∨
        (index = t.pixelCount ∧ s.cfg.queryBoundInclusive = false) →
      exec (.getPixelColorTuple index) s = .next (s.answered .absent))

/-- `get_pixel_color_packed`: the same colour as `(r << 16) | (g << 8) | b` (R65, R140, R142). -/
def Obligations.QueryPackedReadsColour : Prop :=
  ∀ (s : State) (t : Strip) (index : Int), s.strip = some t →
    (0 ≤ index → index < t.pixelCount → ∃ r g b : Byte,
      t.readByte (4 * index.toNat + t.channelMap.offR.toNat) = some r ∧
      t.readByte (4 * index.toNat + t.channelMap.offG.toNat) = some g ∧
      t.readByte (4 * index.toNat + t.channelMap.offB.toNat) = some b ∧
      exec (.getPixelColorPacked index) s =
        .next (s.answered (.int (r.toNat * 65536 + g.toNat * 256 + b.toNat)))) ∧
    (index < 0 ∨ (t.pixelCount : Int) < index ∨
        (index = t.pixelCount ∧ s.cfg.queryBoundInclusive = false) →
      exec (.getPixelColorPacked index) s = .next (s.answered .absent))

/-- `get_pixel_color_str`: the same colour as `#RRGGBB`, two upper-case digits a channel (R66, R140, R141). -/
def Obligations.QueryStringReadsColour : Prop :=
  ∀ (s : State) (t : Strip) (index : Int), s.strip = some t →
    (0 ≤ index → index < t.pixelCount → ∃ r g b : Byte,
      t.readByte (4 * index.toNat + t.channelMap.offR.toNat) = some r ∧
      t.readByte (4 * index.toNat + t.channelMap.offG.toNat) = some g ∧
      t.readByte (4 * index.toNat + t.channelMap.offB.toNat) = some b ∧
      exec (.getPixelColorStr index) s = .next (s.answered (.string
        ['#', upperHex (r.toNat / 16), upperHex (r.toNat % 16), upperHex (g.toNat / 16),
          upperHex (g.toNat % 16), upperHex (b.toNat / 16), upperHex (b.toNat % 16)]))) ∧
    (index < 0 ∨ (t.pixelCount : Int) < index ∨
        (index = t.pixelCount ∧ s.cfg.queryBoundInclusive = false) →
      exec (.getPixelColorStr index) s = .next (s.answered .absent))

/-- Under `QUERY_BOUND_INCLUSIVE` a query at `index == N` answers with some colour in its own format, the
strip unchanged; which colour is free (R140, U1; log 8). -/
def Obligations.InclusiveQueryAnswersSomeColour : Prop :=
  ∀ (s : State) (t : Strip), s.strip = some t → s.cfg.queryBoundInclusive = true →
    (∃ r g b : Byte, exec (.getPixelColorTuple t.pixelCount) s =
      .next { s with freeCount := s.freeCount + 1
                     replies := s.replies ++ [.response ⟨.ok, .triple r.toNat g.toNat b.toNat⟩] }) ∧
    (∃ v, v < 2 ^ 24 ∧ exec (.getPixelColorPacked t.pixelCount) s =
      .next { s with freeCount := s.freeCount + 1
                     replies := s.replies ++ [.response ⟨.ok, .int v⟩] }) ∧
    ∃ r g b : Byte, exec (.getPixelColorStr t.pixelCount) s =
      .next { s with freeCount := s.freeCount + 1
                     replies := s.replies ++ [.response ⟨.ok, .string
                       ['#', upperHex (r.toNat / 16), upperHex (r.toNat % 16), upperHex (g.toNat / 16),
                         upperHex (g.toNat % 16), upperHex (b.toNat / 16), upperHex (b.toNat % 16)]⟩] }

/-- The three queries agree: all absent, or one colour in three formats (R144). -/
def Obligations.QueriesAgree : Prop :=
  ∀ (s : State) (t : Strip) (index : Int), s.strip = some t → s.cfg.queryBoundInclusive = false →
    (exec (.getPixelColorStr index) s = .next (s.answered .absent) ∧
      exec (.getPixelColorPacked index) s = .next (s.answered .absent) ∧
      exec (.getPixelColorTuple index) s = .next (s.answered .absent)) ∨
    ∃ (v : Nat) (ds : List Char), v < 2 ^ 24 ∧
      exec (.getPixelColorPacked index) s = .next (s.answered (.int v)) ∧
      exec (.getPixelColorTuple index) s =
        .next (s.answered (.triple (v / 65536) (v / 256 % 256) (v % 256))) ∧
      exec (.getPixelColorStr index) s = .next (s.answered (.string ('#' :: ds))) ∧
      ds = [upperHex (v / 16 ^ 5), upperHex (v / 16 ^ 4 % 16), upperHex (v / 16 ^ 3 % 16),
        upperHex (v / 16 ^ 2 % 16), upperHex (v / 16 % 16), upperHex (v % 16)]

/-- `combine_color` packs the three channels and reads no state (R145). That `op = 0x0D` selects it is the
spec's decision D3 (log 3); that Red is the high byte of its result the spec derives (R65; log 3). -/
def Obligations.CombineColorPacks : Prop :=
  (∀ c : Command, c.op = 0x0D → decode c = .ok (.combineColor c.cr c.cg c.cb)) ∧
  ∀ (s : State) (t : Strip) (r g b : Byte), s.strip = some t →
    exec (.combineColor r g b) s =
      .next (s.answered (.int (r.toNat * 65536 + g.toNat * 256 + b.toNat)))

/-- A combined colour given to `set_pixel_by_packed_rgb` has the effect of `set_pixel` (R146, S5). -/
def Obligations.CombineThenSetIsSetPixel : Prop :=
  ∀ (s : State) (t : Strip) (index : Int) (r g b : Byte) (br : Int), s.strip = some t →
    ∃ v, exec (.combineColor r g b) s = .next (s.answered (.int v)) ∧
      exec (.setPixelByPackedRgb index v br) s = exec (.setPixel index r g b br) s

/-- `wheel`: the three ramps of the spec's default formula (R151, D11: general knowledge, log 17), or the
implementation's table where it has one (R7, R150). -/
def Obligations.WheelFollowsItsBands : Prop :=
  ∀ (s : State) (t : Strip) (p : Byte), s.strip = some t →
    ∃ v, exec (.wheel p) s = .next (s.answered (.int v)) ∧
      (s.cfg.wheelTable = none →
        (p.toNat < 85 → v = 3 * p.toNat * 65536 + (255 - 3 * p.toNat) * 256) ∧
        (85 ≤ p.toNat → p.toNat < 170 → v = (255 - 3 * (p.toNat - 85)) * 65536 + 3 * (p.toNat - 85)) ∧
        (170 ≤ p.toNat → v = 3 * (p.toNat - 170) * 256 + (255 - 3 * (p.toNat - 170)))) ∧
      ∀ w, s.cfg.wheelTable = some w → v = (w.get ⟨p.toNat, p.isLt⟩).toNat

/-- The default wheel changes each channel by at most 3 from one position to the next, at the band
boundaries too (R150, R152; log 17). -/
def Obligations.DefaultWheelIsContinuous : Prop :=
  ∀ p : Nat, p < 255 →
    closeColours (wheelOf Config.standard (BitVec.ofNat 8 p)) (wheelOf Config.standard (BitVec.ofNat 8 (p + 1)))
      = true

/-- `dump_array` reads every byte, in buffer order, and changes nothing of the strip (R153); that the raw
bytes are recorded at the diagnostic output is the model's choice (log 16). -/
def Obligations.DumpShowsRawBytes : Prop :=
  ∀ (s : State) (t : Strip), s.strip = some t →
    ∃ bytes : List Byte, exec .dumpArray s = .next { s with
        dumps := s.dumps ++ [bytes]
        replies := s.replies ++ [.response ⟨.ok, .none⟩] } ∧
      bytes.length = 4 * t.pixelCount ∧ ∀ a, a < 4 * t.pixelCount → bytes[a]? = t.readByte a

/-- `get_pixel_count`, `get_global_brightness` and `get_max_brightness` answer `N`, `GB` and 31 (R154, R155,
R158). The ops 0x10, 0x11 and 0x14 that select them are the spec's decision D3 (log 3). -/
def Obligations.PropertyReadsAnswer : Prop :=
  (∀ c : Command, (c.op = 0x10 → decode c = .ok .getPixelCount) ∧
    (c.op = 0x11 → decode c = .ok .getGlobalBrightness) ∧
    (c.op = 0x14 → decode c = .ok .getMaxBrightness)) ∧
  ∀ (s : State) (t : Strip), s.strip = some t →
    exec .getPixelCount s = .next (s.answered (.int t.pixelCount)) ∧
    exec .getGlobalBrightness s = .next (s.answered (.int t.globalBrightness.toNat)) ∧
    exec .getMaxBrightness s = .next (s.answered (.int 31))

/-- `get_channel_order` answers the three offsets, Red's first, and `get_send` whether a send capability is
present (R156, R157; the order and the Boolean are the spec's decisions D20 and D3). -/
def Obligations.OrderAndSendReadsAnswer : Prop :=
  ∀ (s : State) (t : Strip), s.strip = some t →
    exec .getChannelOrder s = .next (s.answered (.triple t.channelMap.offR.toNat
      t.channelMap.offG.toNat t.channelMap.offB.toNat)) ∧
    exec .getSend s = .next (s.answered (.bool t.send))

/-! ## Rules that join two operations, and the law of `wheel` -/

/-- "Store the send capability; if none is given, `show` becomes a no-op": a constructed strip has a send
capability exactly where a callable was supplied, and without one the `show` that follows the
construction changes nothing but answers (R194). -/
def Obligations.ConstructedSendDecidesShow : Prop :=
  ∀ (s s' : State) (args : ConstructArgs) (t : Strip), args.send ≠ .other →
    execConstruct args s = .next s' → s'.strip = some t →
    (t.send = true ↔ args.send = .callable) ∧
      (args.send = .absent → exec .showFrame s' = .next (s'.answered .none))

/-- Every lawful `wheel`, the default and an implementation's table alike, is a function of its position
alone that runs from Green to Red over 0..84, from Red to Blue over 85..169 and from Blue to Green over
170..255: along a band the first channel never rises, the second never falls and the third is never
above either; at the band's ends the first, then the second, is the greater; and it moves by at most 3 a
channel across 84|85 and 169|170 (R150). That the law means this is the model's reading (log 17). -/
def Obligations.LawfulWheelRunsThroughItsBands : Prop :=
  ∀ cfg : Config, Config.lawful cfg → ∃ r g b : Nat → Nat,
    (∀ (s : State) (t : Strip) (p : Byte), s.cfg = cfg → s.strip = some t → exec (.wheel p) s =
      .next (s.answered (.int (r p.toNat * 65536 + g p.toNat * 256 + b p.toNat)))) ∧
    (∀ p, r p < 256 ∧ g p < 256 ∧ b p < 256) ∧
    (∀ p q, p ≤ q → q < 85 → g q ≤ g p ∧ r p ≤ r q ∧ b p ≤ g p ∧ b p ≤ r p) ∧
    (∀ p q, 85 ≤ p → p ≤ q → q < 170 → r q ≤ r p ∧ b p ≤ b q ∧ g p ≤ r p ∧ g p ≤ b p) ∧
    (∀ p q, 170 ≤ p → p ≤ q → q < 256 → b q ≤ b p ∧ g p ≤ g q ∧ r p ≤ b p ∧ r p ≤ g p) ∧
    (r 0 < g 0 ∧ g 84 < r 84) ∧ (b 85 < r 85 ∧ r 169 < b 169) ∧ (g 170 < b 170 ∧ b 255 < g 255) ∧
    ∀ p, p = 84 ∨ p = 169 → (r p ≤ r (p + 1) + 3 ∧ r (p + 1) ≤ r p + 3) ∧
      (g p ≤ g (p + 1) + 3 ∧ g (p + 1) ≤ g p + 3) ∧ (b p ≤ b (p + 1) + 3 ∧ b (p + 1) ≤ b p + 3)
end

