-- ==== Sys2Proof/Laws/Decode.lean ====
section
/-! SUPPORT. The laws of the command port: a word carries a record exactly, a port carries an integer that
fits exactly, and decoding looks at `op` alone. -/

namespace Sys2Proof

/-- An integer that fits comes back from its port. -/
theorem port_toInt {x : Int} (h : fitsWord x = true) : (port x).toInt = x := by
  simp only [fitsWord, Bool.and_eq_true, decide_eq_true_eq] at h
  rw [port, BitVec.toInt_ofInt, Int.bmod_def]
  omega

/-- What comes back from a port fits it. -/
theorem fitsWord_toInt (w : Word) : fitsWord w.toInt = true := by
  have h1 := BitVec.le_toInt w
  have h2 := BitVec.toInt_lt (x := w)
  simp only [fitsWord, Bool.and_eq_true, decide_eq_true_eq]
  norm_num at h1 h2
  omega

/-- The low part of an appended word. -/
theorem extract_append_low {m n k s : Nat} (x : BitVec m) (y : BitVec n) (h : s + k ≤ n) :
    (x ++ y).extractLsb' s k = y.extractLsb' s k := by
  apply BitVec.eq_of_getLsbD_eq
  intro i hi
  simp only [BitVec.getLsbD_extractLsb', BitVec.getLsbD_append]
  rw [if_pos (by omega)]

/-- The part of an appended word above its low word. -/
theorem extract_append_high {m n k s : Nat} (x : BitVec m) (y : BitVec n) (h : n ≤ s) :
    (x ++ y).extractLsb' s k = x.extractLsb' (s - n) k := by
  apply BitVec.eq_of_getLsbD_eq
  intro i hi
  simp only [BitVec.getLsbD_extractLsb', BitVec.getLsbD_append]
  rw [if_neg (by omega), show s + i - n = s - n + i by omega]

theorem extract_whole {n : Nat} (x : BitVec n) : x.extractLsb' 0 n = x := by
  apply BitVec.eq_of_getLsbD_eq
  intro i hi
  simp [hi]

/-- The word of a record gives the record back: no field is dropped and none overlaps another. -/
theorem Command.ofWord_toWord (c : Command) : Command.ofWord c.toWord = c := by
  obtain ⟨op, a, e, cr, cg, cb, rgb, br, pos⟩ := c
  unfold Command.ofWord Command.toWord
  congr 1 <;>
    (repeat first
      | exact extract_whole _
      | refine (extract_append_low _ _ (by decide)).trans ?_
      | refine (extract_append_high _ _ (by decide)).trans ?_)

/-- Decoding either accepts one of the twenty assigned `op` values or rejects a reserved one, by name (R81,
R83). -/
theorem decode_cases (c : Command) :
    (∃ i, decode c = .ok i ∧ 0x01 ≤ c.op.toNat ∧ c.op.toNat ≤ 0x14) ∨
      (decode c = .error (.reservedOp c.op) ∧ (c.op.toNat = 0x00 ∨ 0x15 ≤ c.op.toNat)) := by
  have hlt : c.op.toNat < 32 := c.op.isLt
  unfold decode
  generalize c.op.toNat = n at hlt
  interval_cases n <;> simp

/-- Rejecting is always for a reserved `op`. -/
theorem decode_error {c : Command} {e : DecodeError} (h : decode c = .error e) : e = .reservedOp c.op := by
  rcases decode_cases c with ⟨i, hd, -⟩ | ⟨hd, -⟩ <;> rw [hd] at h <;> cases h
  rfl

end Sys2Proof
end

