-- ==== Sys2Proof/Laws/State.lean ====
section
/-! SUPPORT. One lemma per field of `State` and per named update, so that no proof unfolds a record
update. -/

namespace Sys2Proof.Machine

@[simp] theorem State.respond_cfg (s : State) (err : Err) (p : Payload) : (s.respond err p).cfg = s.cfg := rfl
@[simp] theorem State.respond_strip (s : State) (err : Err) (p : Payload) : (s.respond err p).strip = s.strip := rfl
@[simp] theorem State.respond_inbox (s : State) (err : Err) (p : Payload) : (s.respond err p).inbox = s.inbox := rfl
@[simp] theorem State.respond_sinkAnswers (s : State) (err : Err) (p : Payload) : (s.respond err p).sinkAnswers = s.sinkAnswers := rfl
@[simp] theorem State.respond_freeCount (s : State) (err : Err) (p : Payload) : (s.respond err p).freeCount = s.freeCount := rfl
@[simp] theorem State.respond_replies (s : State) (err : Err) (p : Payload) : (s.respond err p).replies = s.replies ++ [.response ⟨err, p⟩] := rfl
@[simp] theorem State.respond_frames (s : State) (err : Err) (p : Payload) : (s.respond err p).frames = s.frames := rfl
@[simp] theorem State.respond_dumps (s : State) (err : Err) (p : Payload) : (s.respond err p).dumps = s.dumps := rfl

@[simp] theorem State.reportConstruction_cfg (s : State) (e : ConstructErr) : (s.reportConstruction e).cfg = s.cfg := rfl
@[simp] theorem State.reportConstruction_strip (s : State) (e : ConstructErr) : (s.reportConstruction e).strip = s.strip := rfl
@[simp] theorem State.reportConstruction_inbox (s : State) (e : ConstructErr) : (s.reportConstruction e).inbox = s.inbox := rfl
@[simp] theorem State.reportConstruction_sinkAnswers (s : State) (e : ConstructErr) : (s.reportConstruction e).sinkAnswers = s.sinkAnswers := rfl
@[simp] theorem State.reportConstruction_freeCount (s : State) (e : ConstructErr) : (s.reportConstruction e).freeCount = s.freeCount := rfl
@[simp] theorem State.reportConstruction_replies (s : State) (e : ConstructErr) : (s.reportConstruction e).replies = s.replies ++ [.construction e] := rfl
@[simp] theorem State.reportConstruction_frames (s : State) (e : ConstructErr) : (s.reportConstruction e).frames = s.frames := rfl
@[simp] theorem State.reportConstruction_dumps (s : State) (e : ConstructErr) : (s.reportConstruction e).dumps = s.dumps := rfl

@[simp] theorem State.setStrip_cfg (s : State) (t : Option Strip) : (s.setStrip t).cfg = s.cfg := rfl
@[simp] theorem State.setStrip_strip (s : State) (t : Option Strip) : (s.setStrip t).strip = t := rfl
@[simp] theorem State.setStrip_inbox (s : State) (t : Option Strip) : (s.setStrip t).inbox = s.inbox := rfl
@[simp] theorem State.setStrip_sinkAnswers (s : State) (t : Option Strip) : (s.setStrip t).sinkAnswers = s.sinkAnswers := rfl
@[simp] theorem State.setStrip_freeCount (s : State) (t : Option Strip) : (s.setStrip t).freeCount = s.freeCount := rfl
@[simp] theorem State.setStrip_replies (s : State) (t : Option Strip) : (s.setStrip t).replies = s.replies := rfl
@[simp] theorem State.setStrip_frames (s : State) (t : Option Strip) : (s.setStrip t).frames = s.frames := rfl
@[simp] theorem State.setStrip_dumps (s : State) (t : Option Strip) : (s.setStrip t).dumps = s.dumps := rfl

@[simp] theorem State.emitFrame_cfg (s : State) (f : List Byte) : (s.emitFrame f).cfg = s.cfg := rfl
@[simp] theorem State.emitFrame_strip (s : State) (f : List Byte) : (s.emitFrame f).strip = s.strip := rfl
@[simp] theorem State.emitFrame_inbox (s : State) (f : List Byte) : (s.emitFrame f).inbox = s.inbox := rfl
@[simp] theorem State.emitFrame_sinkAnswers (s : State) (f : List Byte) : (s.emitFrame f).sinkAnswers = s.sinkAnswers := rfl
@[simp] theorem State.emitFrame_freeCount (s : State) (f : List Byte) : (s.emitFrame f).freeCount = s.freeCount := rfl
@[simp] theorem State.emitFrame_replies (s : State) (f : List Byte) : (s.emitFrame f).replies = s.replies := rfl
@[simp] theorem State.emitFrame_frames (s : State) (f : List Byte) : (s.emitFrame f).frames = s.frames ++ [f] := rfl
@[simp] theorem State.emitFrame_dumps (s : State) (f : List Byte) : (s.emitFrame f).dumps = s.dumps := rfl

@[simp] theorem State.emitDump_cfg (s : State) (bs : List Byte) : (s.emitDump bs).cfg = s.cfg := rfl
@[simp] theorem State.emitDump_strip (s : State) (bs : List Byte) : (s.emitDump bs).strip = s.strip := rfl
@[simp] theorem State.emitDump_inbox (s : State) (bs : List Byte) : (s.emitDump bs).inbox = s.inbox := rfl
@[simp] theorem State.emitDump_sinkAnswers (s : State) (bs : List Byte) : (s.emitDump bs).sinkAnswers = s.sinkAnswers := rfl
@[simp] theorem State.emitDump_freeCount (s : State) (bs : List Byte) : (s.emitDump bs).freeCount = s.freeCount := rfl
@[simp] theorem State.emitDump_replies (s : State) (bs : List Byte) : (s.emitDump bs).replies = s.replies := rfl
@[simp] theorem State.emitDump_frames (s : State) (bs : List Byte) : (s.emitDump bs).frames = s.frames := rfl
@[simp] theorem State.emitDump_dumps (s : State) (bs : List Byte) : (s.emitDump bs).dumps = s.dumps ++ [bs] := rfl

@[simp] theorem State.drawFree_cfg (s : State) : (s.drawFree).cfg = s.cfg := rfl
@[simp] theorem State.drawFree_strip (s : State) : (s.drawFree).strip = s.strip := rfl
@[simp] theorem State.drawFree_inbox (s : State) : (s.drawFree).inbox = s.inbox := rfl
@[simp] theorem State.drawFree_sinkAnswers (s : State) : (s.drawFree).sinkAnswers = s.sinkAnswers := rfl
@[simp] theorem State.drawFree_freeCount (s : State) : (s.drawFree).freeCount = s.freeCount + 1 := rfl
@[simp] theorem State.drawFree_replies (s : State) : (s.drawFree).replies = s.replies := rfl
@[simp] theorem State.drawFree_frames (s : State) : (s.drawFree).frames = s.frames := rfl
@[simp] theorem State.drawFree_dumps (s : State) : (s.drawFree).dumps = s.dumps := rfl

@[simp] theorem State.takeSinkAnswer_cfg (s : State) : s.takeSinkAnswer.cfg = s.cfg := by
  unfold State.takeSinkAnswer; split <;> rfl
@[simp] theorem State.takeSinkAnswer_strip (s : State) : s.takeSinkAnswer.strip = s.strip := by
  unfold State.takeSinkAnswer; split <;> rfl
@[simp] theorem State.takeSinkAnswer_inbox (s : State) : s.takeSinkAnswer.inbox = s.inbox := by
  unfold State.takeSinkAnswer; split <;> rfl
@[simp] theorem State.takeSinkAnswer_replies (s : State) : s.takeSinkAnswer.replies = s.replies := by
  unfold State.takeSinkAnswer; split <;> rfl
@[simp] theorem State.takeSinkAnswer_frames (s : State) : s.takeSinkAnswer.frames = s.frames := by
  unfold State.takeSinkAnswer; split <;> rfl
@[simp] theorem State.takeSinkAnswer_dumps (s : State) : s.takeSinkAnswer.dumps = s.dumps := by
  unfold State.takeSinkAnswer; split <;> rfl

/-- Taking an answer the environment has fixed uses it up; otherwise one free value is drawn. -/
theorem State.takeSinkAnswer_queue (s : State) :
    s.takeSinkAnswer.sinkAnswers = s.sinkAnswers.tail ∧
      s.takeSinkAnswer.freeCount = s.freeCount + (if s.sinkAnswers = [] then 1 else 0) := by
  unfold State.takeSinkAnswer
  split <;> simp_all

theorem State.sinkAnswer_cons {s : State} {ok : Bool} {rest : List Bool}
    (h : s.sinkAnswers = ok :: rest) : s.sinkAnswer = ok := by
  simp [State.sinkAnswer, h]

end Sys2Proof.Machine
end

