-- ==== Sys2Proof/Laws/Memory.lean ====
section
/-! SUPPORT. The laws of the buffer as canonical data: read after write, the canonical form is kept, and
two canonical buffers that read the same are the same. -/

namespace Sys2Proof.Machine

theorem Memory.wf_cons {k : Nat} {v : Byte} {m : Memory} :
    Memory.wf ((k, v) :: m) = true ↔
      v ≠ resetByte k ∧ (∀ c ∈ m, k < c.1) ∧ Memory.wf m = true := by
  simp [Memory.wf, and_assoc]

/-- An offset below every listed one reads as construction left it. -/
theorem Memory.read_below {m : Memory} {a : Nat} (h : ∀ c ∈ m, a < c.1) :
    Memory.read m a = resetByte a := by
  induction m with
  | nil => rfl
  | cons c m ih =>
    obtain ⟨k, v⟩ := c
    have hk : a < k := h (k, v) (by simp)
    have hne : k ≠ a := by omega
    simp only [Memory.read, hne, if_false]
    exact ih fun c hc => h c (by simp [hc])

/-- Read after write (any buffer in canonical form). -/
theorem Memory.read_write {m : Memory} (hm : Memory.wf m = true) (a : Nat) (v : Byte) (x : Nat) :
    Memory.read (Memory.write m a v) x = if x = a then v else Memory.read m x := by
  induction m with
  | nil =>
    by_cases hx : x = a
    · subst hx
      by_cases hv : v = resetByte x <;> simp [Memory.write, Memory.read, hv]
    · have hx' : ¬ a = x := fun h => hx h.symm
      by_cases hv : v = resetByte a <;> simp [Memory.write, Memory.read, hv, hx, hx']
  | cons c m ih =>
    obtain ⟨k, w⟩ := c
    obtain ⟨-, hlt, hm'⟩ := Memory.wf_cons.1 hm
    have ih := ih hm'
    rcases Nat.lt_trichotomy a k with hak | hak | hak
    · have hrd : Memory.read ((k, w) :: m) a = resetByte a :=
        Memory.read_below fun c hc => by
          rcases List.mem_cons.1 hc with rfl | hc
          · exact hak
          · exact Nat.lt_trans hak (hlt c hc)
      by_cases hv : v = resetByte a <;> by_cases hx : x = a
      · subst hx; simp [Memory.write, hak, hv, hrd]
      · simp [Memory.write, hak, hv, hx]
      · simp [Memory.write, hak, hv, hx, Memory.read]
      · have hx' : ¬ a = x := fun h => hx h.symm
        simp [Memory.write, hak, hv, hx, hx', Memory.read]
    · subst hak
      have hrd : Memory.read m a = resetByte a := Memory.read_below hlt
      by_cases hv : v = resetByte a <;> by_cases hx : x = a
      · subst hx; simp [Memory.write, hv, hrd]
      · have hx' : ¬ a = x := fun h => hx h.symm
        simp [Memory.write, hv, hx, hx', Memory.read]
      · simp [Memory.write, hv, hx, Memory.read]
      · have hx' : ¬ a = x := fun h => hx h.symm
        simp [Memory.write, hv, hx, hx', Memory.read]
    · have h1 : ¬ a < k := by omega
      have h2 : ¬ a = k := by omega
      by_cases hkx : k = x
      · subst hkx
        have hx : ¬ k = a := by omega
        simp [Memory.write, h1, h2, Memory.read, hx]
      · simp [Memory.write, h1, h2, Memory.read, hkx, ih]

/-- A write lists nothing but the written offset and what was listed. -/
theorem Memory.mem_write {m : Memory} {a : Nat} {v : Byte} {c : Host.Cell}
    (h : c ∈ Memory.write m a v) : c.1 = a ∨ c ∈ m := by
  induction m with
  | nil =>
    by_cases hv : v = resetByte a <;> simp [Memory.write, hv] at h
    exact .inl (by simp [h])
  | cons d m ih =>
    obtain ⟨k, w⟩ := d
    simp only [Memory.write] at h
    split at h
    · split at h
      · exact .inr h
      · rcases List.mem_cons.1 h with rfl | h
        · exact .inl rfl
        · exact .inr h
    · split at h
      · split at h
        · exact .inr (List.mem_cons_of_mem _ h)
        · rcases List.mem_cons.1 h with rfl | h
          · exact .inl rfl
          · exact .inr (List.mem_cons_of_mem _ h)
      · rcases List.mem_cons.1 h with rfl | h
        · exact .inr (by simp)
        · rcases ih h with h | h
          · exact .inl h
          · exact .inr (List.mem_cons_of_mem _ h)

/-- A write keeps the canonical form. -/
theorem Memory.wf_write {m : Memory} (hm : Memory.wf m = true) (a : Nat) (v : Byte) :
    Memory.wf (Memory.write m a v) = true := by
  induction m with
  | nil => by_cases hv : v = resetByte a <;> simp [Memory.write, Memory.wf, hv]
  | cons c m ih =>
    obtain ⟨k, w⟩ := c
    obtain ⟨hw, hlt, hm'⟩ := Memory.wf_cons.1 hm
    simp only [Memory.write]
    split
    · rename_i hak
      split
      · exact hm
      · rename_i hv
        refine Memory.wf_cons.2 ⟨hv, fun c hc => ?_, hm⟩
        rcases List.mem_cons.1 hc with rfl | hc
        · exact hak
        · exact Nat.lt_trans hak (hlt c hc)
    · rename_i hak
      split
      · rename_i hak'
        split
        · exact hm'
        · rename_i hv
          subst hak'
          exact Memory.wf_cons.2 ⟨hv, hlt, hm'⟩
      · refine Memory.wf_cons.2 ⟨hw, fun c hc => ?_, ih hm'⟩
        rcases Memory.mem_write hc with h | h
        · omega
        · exact hlt c h

/-- Reading back a run of written bytes. -/
theorem Memory.read_writeBytes {m : Memory} (hm : Memory.wf m = true) (a : Nat) (bs : List Byte) (x : Nat) :
    Memory.read (Memory.writeBytes m a bs) x =
      if h : a ≤ x ∧ x < a + bs.length then bs[x - a]'(by omega) else Memory.read m x := by
  induction bs generalizing m a with
  | nil =>
    simp [Memory.writeBytes]
  | cons b bs ih =>
    rw [Memory.writeBytes, ih (Memory.wf_write hm a b), Memory.read_write hm]
    by_cases hx : x = a
    · subst hx
      simp
    · by_cases h1 : a + 1 ≤ x ∧ x < a + 1 + bs.length
      · have h2 : a ≤ x ∧ x < a + (b :: bs).length := by simp; omega
        rw [dif_pos h1, dif_pos h2]
        have : x - a = (x - (a + 1)) + 1 := by omega
        simp [this]
      · have h2 : ¬ (a ≤ x ∧ x < a + (b :: bs).length) := by simp; omega
        rw [dif_neg h1, dif_neg h2, if_neg hx]

theorem Memory.wf_writeBytes {m : Memory} (hm : Memory.wf m = true) (a : Nat) (bs : List Byte) :
    Memory.wf (Memory.writeBytes m a bs) = true := by
  induction bs generalizing m a with
  | nil => exact hm
  | cons b bs ih => exact ih (Memory.wf_write hm a b) (a + 1)

theorem Memory.mem_writeBytes {m : Memory} {a : Nat} {bs : List Byte} {c : Host.Cell}
    (h : c ∈ Memory.writeBytes m a bs) : (a ≤ c.1 ∧ c.1 < a + bs.length) ∨ c ∈ m := by
  induction bs generalizing m a with
  | nil => exact .inr h
  | cons b bs ih =>
    rcases ih h with h | h
    · exact .inl ⟨by omega, by simp; omega⟩
    · rcases Memory.mem_write h with h | h
      · exact .inl ⟨by omega, by simp; omega⟩
      · exact .inr h

/-- A listed offset reads as its pair says. -/
theorem Memory.read_of_mem {m : Memory} (hm : Memory.wf m = true) {k : Nat} {v : Byte}
    (h : (k, v) ∈ m) : Memory.read m k = v := by
  induction m with
  | nil => cases h
  | cons c m ih =>
    obtain ⟨j, w⟩ := c
    obtain ⟨-, hlt, hm'⟩ := Memory.wf_cons.1 hm
    rcases List.mem_cons.1 h with h | h
    · simp_all [Memory.read]
    · have : j < k := hlt (k, v) h
      have hne : j ≠ k := by omega
      simp [Memory.read, hne, ih hm' h]

/-- Equal contents are equal data. -/
theorem Memory.ext_of_read {m m' : Memory} (hm : Memory.wf m = true) (hm' : Memory.wf m' = true)
    (h : ∀ a, Memory.read m a = Memory.read m' a) : m = m' := by
  induction m generalizing m' with
  | nil =>
    cases m' with
    | nil => rfl
    | cons c m' =>
      obtain ⟨k, v⟩ := c
      exact absurd (by simpa [Memory.read] using (h k).symm) (Memory.wf_cons.1 hm').1
  | cons c m ih =>
    obtain ⟨k, v⟩ := c
    obtain ⟨hv, hlt, hmt⟩ := Memory.wf_cons.1 hm
    cases m' with
    | nil => exact absurd (by simpa [Memory.read] using h k) hv
    | cons c' m' =>
      obtain ⟨k', v'⟩ := c'
      obtain ⟨hv', hlt', hmt'⟩ := Memory.wf_cons.1 hm'
      have hk : k = k' := by
        rcases Nat.lt_trichotomy k k' with hkk | hkk | hkk
        · have h1 : Memory.read ((k', v') :: m') k = resetByte k :=
            Memory.read_below fun c hc => by
              rcases List.mem_cons.1 hc with rfl | hc
              · exact hkk
              · exact Nat.lt_trans hkk (hlt' c hc)
          exact absurd (by rw [← h1, ← h k]; simp [Memory.read]) hv
        · exact hkk
        · have h1 : Memory.read ((k, v) :: m) k' = resetByte k' :=
            Memory.read_below fun c hc => by
              rcases List.mem_cons.1 hc with rfl | hc
              · exact hkk
              · exact Nat.lt_trans hkk (hlt c hc)
          exact absurd (by rw [← h1, h k']; simp [Memory.read]) hv'
      subst hk
      have hvv : v = v' := by simpa [Memory.read] using h k
      subst hvv
      have : m = m' := ih hmt hmt' fun a => by
        by_cases ha : k = a
        · subst ha
          rw [Memory.read_below hlt, Memory.read_below hlt']
        · simpa [Memory.read, ha] using h a
      rw [this]

end Sys2Proof.Machine
end

