-- ==== Sys2Proof/Laws/Operands.lean ====
section
/-! SUPPORT. The laws of the operand forms: the scaler and the marker packer, the packed colour, the
channel map, the floored remainder, the order string. -/

namespace Sys2Proof.Machine

/-! ## Brightness -/

theorem clamp31_eq (x : Int) : (clamp31 x : Int) = max 0 (min 31 x) := by
  unfold clamp31
  split <;> [skip; split] <;> omega

theorem clamp31_le (x : Int) : clamp31 x ≤ 31 := by
  unfold clamp31
  split <;> [skip; split] <;> omega

/-- The scaled brightness never exceeds the global one (R10). -/
theorem scale_le (br : Int) (gb : BitVec 5) : scale br gb ≤ gb.toNat := by
  unfold scale
  have h := Nat.mul_le_mul_right gb.toNat (clamp31_le br)
  omega

theorem scale_lt (br : Int) (gb : BitVec 5) : scale br gb < 32 :=
  Nat.lt_of_le_of_lt (scale_le br gb) gb.isLt

theorem markerBits : ∀ y < 32, 0xE0#8 ||| (BitVec.ofNat 8 y &&& 0x1F#8) = BitVec.ofNat 8 (0xE0 + y) := by
  decide

theorem markerBits_top : ∀ y < 32, (BitVec.ofNat 8 (0xE0 + y)).extractLsb' 5 3 = 0b111#3 := by
  decide

theorem markerBits_low : ∀ y < 32, ((BitVec.ofNat 8 (0xE0 + y)).extractLsb' 0 5).toNat = y := by
  decide

/-- The packed marker is the sum the claims compute over the integers (R70). -/
theorem markerByte_eq (gb : BitVec 5) (br : Int) : markerByte gb br = expectedMarker gb br := by
  have h : (max 0 (min 31 br)) * (gb.toNat : Int) / 31 = (scale br gb : Int) := by
    rw [← clamp31_eq]; simp [scale]
  rw [markerByte, markerBits _ (scale_lt br gb), expectedMarker, h]
  rw [show (224 : Int) + (scale br gb : Int) = ((224 + scale br gb : Nat) : Int) by push_cast; rfl]
  exact (BitVec.ofInt_natCast ..).symm

/-- A written marker keeps the three fixed bits (R25, R60). -/
theorem expectedMarker_top (gb : BitVec 5) (br : Int) :
    (expectedMarker gb br).extractLsb' 5 3 = 0b111#3 := by
  rw [← markerByte_eq, markerByte, markerBits _ (scale_lt br gb)]
  exact markerBits_top _ (scale_lt br gb)

/-- The brightness a written marker holds is the scaled one (R60, R70). -/
theorem expectedMarker_low (gb : BitVec 5) (br : Int) :
    ((expectedMarker gb br).extractLsb' 0 5).toNat = scale br gb := by
  rw [← markerByte_eq, markerByte, markerBits _ (scale_lt br gb)]
  exact markerBits_low _ (scale_lt br gb)

/-! ## Packed colours -/

theorem packColour_toNat (r g b : Byte) :
    (packColour r g b).toNat = r.toNat * 65536 + g.toNat * 256 + b.toNat := by
  have hr := r.isLt
  have hg := g.isLt
  have hb := b.isLt
  have h1 : r.toNat <<< 16 ||| g.toNat <<< 8 = (r.toNat * 256 + g.toNat) <<< 8 := by
    rw [← Nat.shiftLeft_add_eq_or_of_lt (by rw [Nat.shiftLeft_eq]; omega)]
    simp only [Nat.shiftLeft_eq]
    omega
  have h2 : (packColour r g b).toNat = r.toNat <<< 16 ||| g.toNat <<< 8 ||| b.toNat := by
    simp only [packColour, BitVec.toNat_or, BitVec.toNat_shiftLeft, BitVec.toNat_setWidth]
    rw [Nat.mod_eq_of_lt (by omega : r.toNat < 2 ^ 24), Nat.mod_eq_of_lt (by omega : g.toNat < 2 ^ 24),
      Nat.mod_eq_of_lt (by omega : b.toNat < 2 ^ 24),
      Nat.mod_eq_of_lt (by rw [Nat.shiftLeft_eq]; omega : r.toNat <<< 16 < 2 ^ 24),
      Nat.mod_eq_of_lt (by rw [Nat.shiftLeft_eq]; omega : g.toNat <<< 8 < 2 ^ 24)]
  rw [h2, h1, ← Nat.shiftLeft_add_eq_or_of_lt hb, Nat.shiftLeft_eq]
  omega

theorem packColour_channels (r g b : Byte) :
    Packed.red (packColour r g b) = r ∧ Packed.green (packColour r g b) = g ∧
      Packed.blue (packColour r g b) = b := by
  have hr := r.isLt
  have hg := g.isLt
  have hb := b.isLt
  refine ⟨?_, ?_, ?_⟩ <;> apply BitVec.eq_of_toNat_eq <;>
    simp only [Packed.red, Packed.green, Packed.blue, BitVec.extractLsb'_toNat, packColour_toNat,
      Nat.shiftRight_eq_div_pow] <;> omega

theorem packedOperand_toNat (v : Int) : (packedOperand v).toNat = (v % 16777216).toNat := by
  simp [packedOperand, BitVec.toNat_ofInt]

/-- The three channels of a packed operand, by division (R76). -/
theorem packedOperand_channels (v : Int) :
    Packed.red (packedOperand v) = BitVec.ofInt 8 (v / 65536) ∧
      Packed.green (packedOperand v) = BitVec.ofInt 8 (v / 256) ∧
        Packed.blue (packedOperand v) = BitVec.ofInt 8 v := by
  refine ⟨?_, ?_, ?_⟩ <;> apply BitVec.eq_of_toNat_eq <;>
    simp only [Packed.red, Packed.green, Packed.blue, BitVec.extractLsb'_toNat, packedOperand_toNat,
      Nat.shiftRight_eq_div_pow, BitVec.toNat_ofInt] <;> omega

/-- An operand that is a packed colour already (R76, R146). -/
theorem packedOperand_packed (w : Packed) : packedOperand (w.toNat : Int) = w := by
  simp [packedOperand]

theorem hexDigit_eq : ∀ n < 16, hexDigit n = upperHex n := by decide

/-- The seven characters of a colour string (R66). -/
theorem colourString_eq (r g b : Byte) :
    colourString r g b = .string ['#', upperHex (r.toNat / 16), upperHex (r.toNat % 16),
      upperHex (g.toNat / 16), upperHex (g.toNat % 16), upperHex (b.toNat / 16), upperHex (b.toNat % 16)] := by
  have hr := r.isLt
  have hg := g.isLt
  have hb := b.isLt
  simp only [colourString, hex2, List.cons_append, List.nil_append]
  rw [hexDigit_eq _ (by omega), hexDigit_eq _ (by omega), hexDigit_eq _ (by omega),
    hexDigit_eq _ (by omega), hexDigit_eq _ (by omega), hexDigit_eq _ (by omega)]

/-! ## The channel map -/

/-- What a bijective map says of the offsets as numbers (R29). -/
theorem ChannelMap.bijective_iff (m : ChannelMap) :
    m.bijective = true ↔
      1 ≤ m.offR.toNat ∧ 1 ≤ m.offG.toNat ∧ 1 ≤ m.offB.toNat ∧
        m.offR.toNat ≠ m.offG.toNat ∧ m.offR.toNat ≠ m.offB.toNat ∧ m.offG.toNat ≠ m.offB.toNat := by
  obtain ⟨x, y, z⟩ := m
  have h : ∀ x y z : BitVec 2, (ChannelMap.mk x y z).bijective = true ↔
      1 ≤ x.toNat ∧ 1 ≤ y.toNat ∧ 1 ≤ z.toNat ∧ x.toNat ≠ y.toNat ∧ x.toNat ≠ z.toNat ∧
        y.toNat ≠ z.toNat := by decide
  exact h x y z

/-! ## The floored remainder -/

theorem floorMod_lt (x : Int) {n : Nat} (hn : 0 < n) : floorMod x n < n := by
  have h1 := Int.emod_nonneg x (by omega : (n : Int) ≠ 0)
  have h2 := Int.emod_lt_of_pos x (by omega : (0 : Int) < n)
  unfold floorMod
  omega

theorem floorMod_cast (x : Int) {n : Nat} (hn : 0 < n) : (floorMod x n : Int) = x % n := by
  have h1 := Int.emod_nonneg x (by omega : (n : Int) ≠ 0)
  unfold floorMod
  omega

/-- The source of a record, as a remainder of the unreduced amount, in either direction (R122, R123). -/
theorem rotateSource_cast (lower : Bool) {n : Nat} (hn : 0 < n) (p : Int) (i : Nat) :
    (rotateSource lower n (floorMod p n) i : Int) = (if lower then (i : Int) + p else (i : Int) - p) % n := by
  have h := floorMod_cast p hn
  cases lower
  · simp only [rotateSource, Bool.false_eq_true, if_false]
    rw [floorMod_cast _ hn, h]
    simp
  · simp only [rotateSource, if_true]
    push_cast
    rw [h]
    simp

/-- Two rotations one after the other take their records from where their sum takes them (R126). -/
theorem rotateSource_add (lower : Bool) {n : Nat} (hn : 0 < n) (p q : Int) (i : Nat) :
    rotateSource lower n (floorMod p n) (rotateSource lower n (floorMod q n) i) =
      rotateSource lower n (floorMod (p + q) n) i := by
  have h1 := rotateSource_cast lower hn p (rotateSource lower n (floorMod q n) i)
  rw [rotateSource_cast lower hn q i] at h1
  have h3 := rotateSource_cast lower hn (p + q) i
  have : (rotateSource lower n (floorMod p n) (rotateSource lower n (floorMod q n) i) : Int) =
      rotateSource lower n (floorMod (p + q) n) i := by
    rw [h1, h3]
    cases lower
    · simp only [Bool.false_eq_true, if_false, Int.emod_sub_emod]
      congr 1
      ring
    · simp only [if_true, Int.emod_add_emod]
      congr 1
      ring
  exact_mod_cast this

/-! ## The law of `wheel` -/

/-- Along a band the first channel only falls, the second only rises, and the third stays below both. -/
theorem WheelBand.mono {w : Nat → Packed} {first len : Nat} {c d e : Packed → Byte}
    (h : WheelBand w first len c d e) {p q : Nat} (hp : first ≤ p) (hpq : p ≤ q) (hq : q ≤ first + len) :
    (c (w q)).toNat ≤ (c (w p)).toNat ∧ (d (w p)).toNat ≤ (d (w q)).toNat ∧
      (e (w p)).toNat ≤ (c (w p)).toNat ∧ (e (w p)).toNat ≤ (d (w p)).toNat := by
  have h3 := h.1 (p - first) (by omega)
  rw [Nat.add_sub_cancel' hp] at h3
  suffices (c (w q)).toNat ≤ (c (w p)).toNat ∧ (d (w p)).toNat ≤ (d (w q)).toNat from
    ⟨this.1, this.2, h3⟩
  induction q, hpq using Nat.le_induction with
  | base => exact ⟨Nat.le_refl _, Nat.le_refl _⟩
  | succ q hle ih =>
    have ih := ih (by omega)
    have hs := h.2.1 (q - first) (by omega)
    rw [Nat.add_sub_cancel' (by omega)] at hs
    omega

/-- One quantization step, as inequalities in each channel. -/
theorem closeColours_iff {x y : Packed} : closeColours x y = true ↔
    ((Packed.red x).toNat ≤ (Packed.red y).toNat + 3 ∧ (Packed.red y).toNat ≤ (Packed.red x).toNat + 3) ∧
    ((Packed.green x).toNat ≤ (Packed.green y).toNat + 3 ∧ (Packed.green y).toNat ≤ (Packed.green x).toNat + 3) ∧
    ((Packed.blue x).toNat ≤ (Packed.blue y).toNat + 3 ∧ (Packed.blue y).toNat ≤ (Packed.blue x).toNat + 3) := by
  unfold closeColours channelDistance
  rw [Bool.and_eq_true, Bool.and_eq_true, decide_eq_true_eq, decide_eq_true_eq, decide_eq_true_eq]
  omega

/-- The default `wheel` obeys the law of R150. -/
theorem Config.standard_lawful : Config.lawful Config.standard := by decide

end Sys2Proof.Machine
end

