-- ==== Sys2Proof/Laws/Strip.lean ====
section
/-! SUPPORT. What each operation on the strip does, said once: a byte write, a pixel write, a run of pixel
writes, the clearing and the moving of records. Every lemma names the new strip's bytes at every
offset. -/

namespace Sys2Proof.Machine

/-- The buffer is in canonical form and lists nothing outside its `4 * N` bytes. -/
def Strip.canonical (t : Strip) : Prop := Memory.wf t.buf = true ∧ t.inBounds = true

theorem Strip.sameConfig.refl (t : Strip) : Strip.sameConfig t t := ⟨rfl, rfl, rfl, rfl⟩

theorem Strip.sameConfig.trans {t u v : Strip} (h : Strip.sameConfig t u) (h' : Strip.sameConfig u v) :
    Strip.sameConfig t v :=
  ⟨h'.1.trans h.1, h'.2.1.trans h.2.1, h'.2.2.1.trans h.2.2.1, h'.2.2.2.trans h.2.2.2⟩

theorem Strip.sameConfig.size {t u : Strip} (h : Strip.sameConfig t u) : u.size = t.size := by
  simp [Strip.size, h.1]

theorem Strip.inBounds_iff {t : Strip} : t.inBounds = true ↔ ∀ c ∈ t.buf, c.1 < t.size := by
  simp [Strip.inBounds]

/-- Two canonical strips of one configuration whose bytes read the same are the same. -/
theorem Strip.ext_of_readByte {t u : Strip} (ht : t.canonical) (hu : u.canonical)
    (hc : Strip.sameConfig t u) (h : ∀ a, u.readByte a = t.readByte a) : u = t := by
  have hbuf : u.buf = t.buf := by
    refine Memory.ext_of_read hu.1 ht.1 fun a => ?_
    by_cases ha : a < t.size
    · have := h a
      simpa [Strip.readByte, hc.size, ha] using this
    · have hbelow : ∀ (v : Strip), v.inBounds = true → v.size = t.size → Memory.wf v.buf = true →
          Memory.read v.buf a = resetByte a := by
        intro v hv hs hw
        have hall := Strip.inBounds_iff.1 hv
        have hnot : ∀ c ∈ v.buf, c.1 ≠ a := fun c hcm heq => by
          have := hall c hcm; omega
        clear hall hw
        generalize v.buf = m at hnot
        induction m with
        | nil => rfl
        | cons c m ih =>
          obtain ⟨k, w⟩ := c
          have hk : k ≠ a := hnot (k, w) (by simp)
          simp only [Memory.read, hk, if_false]
          exact ih fun c hc => hnot c (by simp [hc])
      rw [hbelow u hu.2 hc.size hu.1, hbelow t ht.2 rfl ht.1]
  obtain ⟨h1, h2, h3, h4⟩ := hc
  have h1 := BitVec.eq_of_toNat_eq h1
  obtain ⟨n, g, m, s, b⟩ := t
  obtain ⟨n', g', m', s', b'⟩ := u
  simp_all

/-! ## Bytes -/

/-- A byte write inside the buffer succeeds and keeps the configuration, whatever the buffer. -/
theorem Strip.writeByte_isSome {t : Strip} {a : Nat} (ha : a < t.size) (v : Byte) :
    ∃ t', t.writeByte a v = some t' ∧ Strip.sameConfig t t' :=
  ⟨{ t with buf := Memory.write t.buf a v }, by simp [Strip.writeByte, ha], rfl, rfl, rfl, rfl⟩

/-- Everything a byte write does. -/
theorem Strip.writeByte_spec {t : Strip} (ht : t.canonical) {a : Nat} (ha : a < t.size) (v : Byte) :
    ∃ t', t.writeByte a v = some t' ∧ Strip.sameConfig t t' ∧ t'.canonical ∧
      ∀ x, t'.readByte x = if x = a then some v else t.readByte x := by
  refine ⟨{ t with buf := Memory.write t.buf a v }, by simp [Strip.writeByte, ha], ⟨rfl, rfl, rfl, rfl⟩,
    ⟨Memory.wf_write ht.1 a v, Strip.inBounds_iff.2 fun c hc => ?_⟩, fun x => ?_⟩
  · rcases Memory.mem_write hc with h | h
    · exact h ▸ ha
    · exact Strip.inBounds_iff.1 ht.2 c h
  · by_cases hx : x = a
    · subst hx
      have : x < Strip.size { t with buf := Memory.write t.buf x v } := ha
      simp [Strip.readByte, this, Memory.read_write ht.1]
    · simp only [Strip.readByte, Strip.size, Memory.read_write ht.1, if_neg hx]
      rfl

/-- A run written inside the buffer succeeds and keeps the configuration, whatever the buffer. -/
theorem Strip.memWrite_isSome {t : Strip} {a : Nat} {bs : List Byte} (ha : a + bs.length ≤ t.size) :
    ∃ t', t.memWrite a bs = some t' ∧ Strip.sameConfig t t' :=
  ⟨{ t with buf := Memory.writeBytes t.buf a bs }, by simp [Strip.memWrite, ha], rfl, rfl, rfl, rfl⟩

/-- Everything a run of byte writes does. -/
theorem Strip.memWrite_spec {t : Strip} (ht : t.canonical) {a : Nat} {bs : List Byte}
    (ha : a + bs.length ≤ t.size) :
    ∃ t', t.memWrite a bs = some t' ∧ Strip.sameConfig t t' ∧ t'.canonical ∧
      ∀ x, t'.readByte x = if a ≤ x ∧ x < a + bs.length then bs[x - a]? else t.readByte x := by
  refine ⟨{ t with buf := Memory.writeBytes t.buf a bs }, by simp [Strip.memWrite, ha],
    ⟨rfl, rfl, rfl, rfl⟩, ⟨Memory.wf_writeBytes ht.1 a bs, Strip.inBounds_iff.2 fun c hc => ?_⟩,
    fun x => ?_⟩
  · rcases Memory.mem_writeBytes hc with h | h
    · exact Nat.lt_of_lt_of_le h.2 ha
    · exact Strip.inBounds_iff.1 ht.2 c h
  · by_cases hx : a ≤ x ∧ x < a + bs.length
    · have hxs : x < t.size := by omega
      have hl : x - a < bs.length := by omega
      have hs : x < Strip.size { t with buf := Memory.writeBytes t.buf a bs } := hxs
      rw [Strip.readByte, if_pos hs, if_pos hx]
      simp [Memory.read_writeBytes ht.1, hx, hl]
    · rw [if_neg hx]
      simp only [Strip.readByte, Strip.size, Memory.read_writeBytes ht.1, dif_neg hx]
      rfl

/-- Reading a run inside the buffer gives its bytes, each as `readByte` gives it. -/
theorem Strip.memRead_spec {t : Strip} {a n : Nat} (h : a + n ≤ t.size) :
    ∃ bs, t.memRead a n = some bs ∧ bs.length = n ∧ ∀ j, j < n → bs[j]? = t.readByte (a + j) := by
  refine ⟨_, if_pos h, by simp, fun j hj => ?_⟩
  have : a + j < t.size := by omega
  simp [hj, Strip.readByte, this]

/-! ## Pixels -/

theorem Strip.colourOffset_lt {t : Strip} {i : Nat} (hi : i < t.pixelCount) (c : Channel) :
    t.colourOffset i c < t.size := by
  have := (t.channelMap.off c).isLt
  simp only [Strip.colourOffset, Strip.size]
  omega

theorem Strip.sameConfig.colourOffset {t u : Strip} (h : Strip.sameConfig t u) (i : Nat) (c : Channel) :
    u.colourOffset i c = t.colourOffset i c := by
  simp [Strip.colourOffset, h.2.2.1]

theorem Strip.writePixel_isSome {t : Strip} {i : Nat} (hi : i < t.pixelCount) (r g b : Byte) (br : Int) :
    ∃ t', t.writePixel i r g b br = some t' ∧ Strip.sameConfig t t' := by
  have h0 : 4 * i < t.size := by simp only [Strip.size]; omega
  obtain ⟨t1, e1, c1⟩ := Strip.writeByte_isSome h0 (markerByte t.globalBrightness br)
  have i1 : i < t1.pixelCount := by rw [c1.1]; exact hi
  obtain ⟨t2, e2, c2⟩ := Strip.writeByte_isSome (Strip.colourOffset_lt i1 .red) r
  have i2 : i < t2.pixelCount := by rw [c2.1]; exact i1
  obtain ⟨t3, e3, c3⟩ := Strip.writeByte_isSome (Strip.colourOffset_lt i2 .green) g
  have i3 : i < t3.pixelCount := by rw [c3.1]; exact i2
  obtain ⟨t4, e4, c4⟩ := Strip.writeByte_isSome (Strip.colourOffset_lt i3 .blue) b
  rw [(c1.trans c2).colourOffset, ← c1.colourOffset] at e3
  rw [((c1.trans c2).trans c3).colourOffset, ← c1.colourOffset] at e4
  refine ⟨t4, ?_, ((c1.trans c2).trans c3).trans c4⟩
  rw [Strip.writePixel, e1, Option.bind_some, Strip.writeColour, e2, Option.bind_some,
    e3, Option.bind_some, e4]

/-- Everything a pixel write does: all four bytes of the pixel and no other byte (R110). -/
theorem Strip.writePixel_spec {t : Strip} (ht : t.canonical) (hm : t.channelMap.bijective = true)
    {i : Nat} (hi : i < t.pixelCount) (r g b : Byte) (br : Int) :
    ∃ t', t.writePixel i r g b br = some t' ∧ t'.canonical ∧
      PixelsWritten t t' i (i + 1) r g b br := by
  have h0 : 4 * i < t.size := by simp only [Strip.size]; omega
  obtain ⟨t1, e1, c1, k1, r1⟩ := Strip.writeByte_spec ht h0 (markerByte t.globalBrightness br)
  have i1 : i < t1.pixelCount := by rw [c1.1]; exact hi
  obtain ⟨t2, e2, c2, k2, r2⟩ := Strip.writeByte_spec k1 (Strip.colourOffset_lt i1 .red) r
  have i2 : i < t2.pixelCount := by rw [c2.1]; exact i1
  obtain ⟨t3, e3, c3, k3, r3⟩ := Strip.writeByte_spec k2 (Strip.colourOffset_lt i2 .green) g
  have i3 : i < t3.pixelCount := by rw [c3.1]; exact i2
  obtain ⟨t4, e4, c4, k4, r4⟩ := Strip.writeByte_spec k3 (Strip.colourOffset_lt i3 .blue) b
  have hc : Strip.sameConfig t t4 := ((c1.trans c2).trans c3).trans c4
  refine ⟨t4, ?_, k4, hc, fun j hj1 hj2 => ?_, fun a ha => ?_⟩
  · rw [(c1.trans c2).colourOffset, ← c1.colourOffset] at e3
    rw [((c1.trans c2).trans c3).colourOffset, ← c1.colourOffset] at e4
    rw [Strip.writePixel, e1, Option.bind_some, Strip.writeColour, e2, Option.bind_some,
      e3, Option.bind_some, e4]
  all_goals
    rw [c1.colourOffset] at r2
    rw [(c1.trans c2).colourOffset] at r3
    rw [((c1.trans c2).trans c3).colourOffset] at r4
    have hb := (ChannelMap.bijective_iff _).1 hm
    have hR := t.channelMap.offR.isLt
    have hG := t.channelMap.offG.isLt
    have hB := t.channelMap.offB.isLt
    simp only [Strip.colourOffset, ChannelMap.off] at r2 r3 r4
  · obtain rfl : j = i := by omega
    simp only [Strip.pixelIs, hc.2.2.1, hc.2.1, ← markerByte_eq]
    refine ⟨?_, ?_, ?_, ?_⟩ <;> simp only [r4, r3, r2, r1] <;> split_ifs <;> first | rfl | omega
  · simp only [r4, r3, r2, r1]
    split_ifs <;> first | rfl | omega

/-- A pixel that is not written keeps its bytes. -/
theorem Strip.pixelIs.keep {t u : Strip} {i : Nat} {r g b : Byte} {br : Int} (h : t.pixelIs i r g b br)
    (hc : Strip.sameConfig t u)
    (hr : ∀ a, 4 * i ≤ a → a < 4 * i + 4 → u.readByte a = t.readByte a) : u.pixelIs i r g b br := by
  have hR := t.channelMap.offR.isLt
  have hG := t.channelMap.offG.isLt
  have hB := t.channelMap.offB.isLt
  obtain ⟨h1, h2, h3, h4⟩ := h
  refine ⟨?_, ?_, ?_, ?_⟩
  · rw [hr _ (by omega) (by omega), hc.2.1, h1]
  · rw [hc.2.2.1, hr _ (by omega) (by omega), h2]
  · rw [hc.2.2.1, hr _ (by omega) (by omega), h3]
  · rw [hc.2.2.1, hr _ (by omega) (by omega), h4]

/-- A run of pixels and then the pixel after it. -/
theorem PixelsWritten.snoc {t u v : Strip} {lo k : Nat} {r g b : Byte} {br : Int}
    (h : PixelsWritten t u lo (lo + k) r g b br)
    (h' : PixelsWritten u v (lo + k) (lo + k + 1) r g b br) :
    PixelsWritten t v lo (lo + (k + 1)) r g b br := by
  obtain ⟨c, w, f⟩ := h
  obtain ⟨c', w', f'⟩ := h'
  refine ⟨c.trans c', fun i h1 h2 => ?_, fun a ha => ?_⟩
  · by_cases hi : i < lo + k
    · exact (w i h1 hi).keep c' fun a ha1 ha2 => f' a (by omega)
    · exact w' i (by omega) (by omega)
  · rw [f' a (by omega), f a (by omega)]

theorem Strip.fillPixels_isSome (t : Strip) (start : Nat) (r g b : Byte) (br : Int) :
    ∀ n, start + n ≤ t.pixelCount →
      ∃ t', t.fillPixels start r g b br n = some t' ∧ Strip.sameConfig t t'
  | 0, _ => ⟨t, rfl, Strip.sameConfig.refl t⟩
  | n + 1, h => by
    obtain ⟨t1, e1, c1⟩ := Strip.fillPixels_isSome t start r g b br n (by omega)
    obtain ⟨t2, e2, c2⟩ := Strip.writePixel_isSome (t := t1) (i := start + n) (by rw [c1.1]; omega) r g b br
    exact ⟨t2, by rw [Strip.fillPixels, e1, Option.bind_some, e2], c1.trans c2⟩

/-- Everything a run of pixel writes does (R104, R106). -/
theorem Strip.fillPixels_spec {t : Strip} (ht : t.canonical) (hm : t.channelMap.bijective = true)
    (start : Nat) (r g b : Byte) (br : Int) :
    ∀ n, start + n ≤ t.pixelCount →
      ∃ t', t.fillPixels start r g b br n = some t' ∧ t'.canonical ∧
        PixelsWritten t t' start (start + n) r g b br
  | 0, _ => ⟨t, rfl, ht, Strip.sameConfig.refl t, fun i h1 h2 => by omega, fun _ _ => rfl⟩
  | n + 1, h => by
    obtain ⟨t1, e1, k1, w1⟩ := Strip.fillPixels_spec ht hm start r g b br n (by omega)
    obtain ⟨t2, e2, k2, w2⟩ := Strip.writePixel_spec k1 (by rw [w1.1.2.2.1]; exact hm)
      (i := start + n) (by rw [w1.1.1]; omega) r g b br
    exact ⟨t2, by rw [Strip.fillPixels, e1, Option.bind_some, e2], k2, w1.snoc w2⟩

/-- The same pixels written again change nothing (R49). -/
theorem PixelsWritten.again {t u v : Strip} {lo hi : Nat} {r g b : Byte} {br : Int} (hu : u.canonical)
    (hv : v.canonical) (hm : t.channelMap.bijective = true) (h1 : PixelsWritten t u lo hi r g b br)
    (h2 : PixelsWritten u v lo hi r g b br) : v = u := by
  refine Strip.ext_of_readByte hu hv h2.1 fun a => ?_
  by_cases ha : a < 4 * lo ∨ 4 * hi ≤ a
  · exact h2.2.2 a ha
  · obtain ⟨m1, r1, g1, b1⟩ := h1.2.1 (a / 4) (by omega) (by omega)
    obtain ⟨m2, r2, g2, b2⟩ := h2.2.1 (a / 4) (by omega) (by omega)
    rw [h2.1.2.2.1] at r2 g2 b2
    rw [h2.1.2.1] at m2
    have hb := (ChannelMap.bijective_iff _).1 hm
    rw [← h1.1.2.2.1] at hb
    have hR := u.channelMap.offR.isLt
    have hG := u.channelMap.offG.isLt
    have hB := u.channelMap.offB.isLt
    obtain h | h | h | h : a = 4 * (a / 4) ∨ a = 4 * (a / 4) + u.channelMap.offR.toNat ∨
        a = 4 * (a / 4) + u.channelMap.offG.toNat ∨ a = 4 * (a / 4) + u.channelMap.offB.toNat := by omega
    all_goals rw [h]
    · rw [m1, m2]
    · rw [r1, r2]
    · rw [g1, g2]
    · rw [b1, b2]

/-! ## Clearing and moving records -/

theorem Strip.clearPixels_isSome (t : Strip) :
    ∀ n, n ≤ t.pixelCount → ∃ t', t.clearPixels n = some t' ∧ Strip.sameConfig t t'
  | 0, _ => ⟨t, rfl, Strip.sameConfig.refl t⟩
  | n + 1, h => by
    obtain ⟨t1, e1, c1⟩ := Strip.clearPixels_isSome t n (by omega)
    obtain ⟨t2, e2, c2⟩ := Strip.memWrite_isSome (t := t1) (a := 4 * n + 1) (bs := [0, 0, 0])
      (by simp only [Strip.size, c1.1, List.length_cons, List.length_nil]; omega)
    exact ⟨t2, by rw [Strip.clearPixels, e1, Option.bind_some, e2], c1.trans c2⟩

/-- Everything clearing does: the colour bytes become zero, every other byte stays (R109). -/
theorem Strip.clearPixels_spec {t : Strip} (ht : t.canonical) :
    ∀ n, n ≤ t.pixelCount →
      ∃ t', t.clearPixels n = some t' ∧ Strip.sameConfig t t' ∧ t'.canonical ∧
        ∀ x, t'.readByte x = if x < 4 * n ∧ x % 4 ≠ 0 then some 0 else t.readByte x
  | 0, _ => ⟨t, rfl, Strip.sameConfig.refl t, ht, fun x => by simp⟩
  | n + 1, h => by
    obtain ⟨t1, e1, c1, k1, r1⟩ := Strip.clearPixels_spec ht n (by omega)
    obtain ⟨t2, e2, c2, k2, r2⟩ := Strip.memWrite_spec k1 (a := 4 * n + 1) (bs := [0, 0, 0])
      (by simp only [Strip.size, c1.1, List.length_cons, List.length_nil]; omega)
    refine ⟨t2, by rw [Strip.clearPixels, e1, Option.bind_some, e2], c1.trans c2, k2, fun x => ?_⟩
    rw [r2 x, r1 x]
    simp only [List.length_cons, List.length_nil]
    by_cases hx : 4 * n + 1 ≤ x ∧ x < 4 * n + 1 + 3
    · have h3 : x < 4 * (n + 1) ∧ x % 4 ≠ 0 := by omega
      obtain h | h | h : x - (4 * n + 1) = 0 ∨ x - (4 * n + 1) = 1 ∨ x - (4 * n + 1) = 2 := by omega
      all_goals simp [hx, h3, h]
    · have h3 : (x < 4 * (n + 1) ∧ x % 4 ≠ 0) ↔ (x < 4 * n ∧ x % 4 ≠ 0) := by omega
      rw [if_neg (by omega)]
      simp only [h3]

theorem Strip.moveRecords_isSome {old t : Strip} (hs : old.pixelCount = t.pixelCount) (src : Nat → Nat) :
    ∀ n, n ≤ t.pixelCount → (∀ i, i < n → src i < t.pixelCount) →
      ∃ t', Strip.moveRecords old t src n = some t' ∧ Strip.sameConfig t t'
  | 0, _, _ => ⟨t, rfl, Strip.sameConfig.refl t⟩
  | n + 1, h, hsrc => by
    obtain ⟨t1, e1, c1⟩ := Strip.moveRecords_isSome hs src n (by omega) fun i hi => hsrc i (by omega)
    have hn := hsrc n (by omega)
    obtain ⟨bs, eb, lb, -⟩ := Strip.memRead_spec (t := old) (a := 4 * src n) (n := 4)
      (by simp only [Strip.size, hs]; omega)
    obtain ⟨t2, e2, c2⟩ := Strip.memWrite_isSome (t := t1) (a := 4 * n) (bs := bs)
      (by simp only [Strip.size, c1.1, lb]; omega)
    exact ⟨t2, by rw [Strip.moveRecords, e1, Option.bind_some, eb, Option.bind_some, e2], c1.trans c2⟩

/-- Everything moving records does: record `i` becomes the old record `src i`, byte for byte (R122). -/
theorem Strip.moveRecords_spec {old t : Strip} (hs : old.pixelCount = t.pixelCount) (ht : t.canonical)
    (src : Nat → Nat) :
    ∀ n, n ≤ t.pixelCount → (∀ i, i < n → src i < t.pixelCount) →
      ∃ t', Strip.moveRecords old t src n = some t' ∧ Strip.sameConfig t t' ∧ t'.canonical ∧
        ∀ x, t'.readByte x = if x < 4 * n then old.readByte (4 * src (x / 4) + x % 4) else t.readByte x
  | 0, _, _ => ⟨t, rfl, Strip.sameConfig.refl t, ht, fun x => by simp⟩
  | n + 1, h, hsrc => by
    obtain ⟨t1, e1, c1, k1, r1⟩ :=
      Strip.moveRecords_spec hs ht src n (by omega) fun i hi => hsrc i (by omega)
    have hn := hsrc n (by omega)
    obtain ⟨bs, eb, lb, rb⟩ := Strip.memRead_spec (t := old) (a := 4 * src n) (n := 4)
      (by simp only [Strip.size, hs]; omega)
    obtain ⟨t2, e2, c2, k2, r2⟩ := Strip.memWrite_spec k1 (a := 4 * n) (bs := bs)
      (by simp only [Strip.size, c1.1, lb]; omega)
    refine ⟨t2, by rw [Strip.moveRecords, e1, Option.bind_some, eb, Option.bind_some, e2],
      c1.trans c2, k2, fun x => ?_⟩
    rw [r2 x, r1 x, lb]
    by_cases hx : 4 * n ≤ x ∧ x < 4 * n + 4
    · have h3 : x < 4 * (n + 1) := by omega
      have h4 : x / 4 = n := by omega
      have h5 : x % 4 = x - 4 * n := by omega
      rw [if_pos hx, if_pos h3, rb _ (by omega), h4, h5]
    · have h3 : x < 4 * (n + 1) ↔ x < 4 * n := by omega
      rw [if_neg hx]
      simp only [h3]

/-! ## The invariant -/

/-- MARKER by the bytes that can be read (R25). -/
theorem Strip.markersSet_iff {t : Strip} :
    t.markersSet ↔ ∀ i v, t.readByte (4 * i) = some v → v.extractLsb' 5 3 = 0b111#3 := by
  constructor
  · intro h i v hv
    by_cases hi : 4 * i < t.size
    · have : Memory.read t.buf (4 * i) = v := by simpa [Strip.readByte, hi] using hv
      exact this ▸ h i (by simp only [Strip.size] at hi; omega)
    · simp [Strip.readByte, hi] at hv
  · intro h i hi
    have hs : 4 * i < t.size := by simp only [Strip.size]; omega
    exact h i _ (by simp [Strip.readByte, hs])

theorem Strip.Inv.canonical {t : Strip} (h : t.Inv) : t.canonical := ⟨h.1, h.2.1⟩

theorem Strip.Inv.bijective {t : Strip} (h : t.Inv) : t.channelMap.bijective = true := h.2.2.2.1

/-- The part of the invariant that speaks of the configuration alone is kept with the configuration (R32). -/
theorem Strip.Inv.of_sameConfig {t t' : Strip} (h : t.Inv) (hc : Strip.sameConfig t t') :
    t'.channelMap.bijective = true ∧ t'.countFits = true := by
  rw [Strip.countFits, hc.1, hc.2.2.1]
  exact h.2.2.2

/-- Written pixels keep the invariant (R37). -/
theorem Strip.Inv.pixelsWritten {t t' : Strip} (h : t.Inv) (hk : t'.canonical) {lo hi : Nat} {r g b : Byte}
    {br : Int} (hw : PixelsWritten t t' lo hi r g b br) : t'.Inv := by
  refine ⟨hk.1, hk.2, Strip.markersSet_iff.2 fun i v hv => ?_, h.of_sameConfig hw.1⟩
  by_cases hi' : lo ≤ i ∧ i < hi
  · have := (hw.2.1 i hi'.1 hi'.2).1
    rw [hv] at this
    rw [Option.some.inj this]
    exact expectedMarker_top _ _
  · rw [hw.2.2 _ (by omega)] at hv
    exact Strip.markersSet_iff.1 h.2.2.1 i v hv

end Sys2Proof.Machine
end

