-- ==== Sys2Proof/Laws/Exec.lean ====
section
/-! SUPPORT. What each meaning does, said once: the spec lemmas of the shared bodies (every byte of the new
strip), and for every shape of command that it completes, answers once, and keeps what it must keep. -/

namespace Sys2Proof.Machine

theorem State.withStrip_some {s : State} {t : Strip} (h : s.strip = some t) (f : Strip → Result) :
    s.withStrip f = f t := by
  simp [State.withStrip, h]

theorem State.withStrip_none {s : State} (h : s.strip = none) (f : Strip → Result) :
    s.withStrip f = .refused .noStrip := by
  simp [State.withStrip, h]

theorem State.commit_some (s : State) (t : Strip) : s.commit (some t) = .next (s.mutated t) := rfl

theorem State.answer_eq (s : State) (p : Payload) : s.answer p = .next (s.answered p) := rfl

theorem State.noOp_eq (s : State) : s.noOp = .next (s.answered .none) := rfl

/-! ## Predicates -/

theorem inRange_iff {n : Nat} {x : Int} : inRange n x = true ↔ 0 ≤ x ∧ x < n := by simp [inRange]

theorem rangeOk_iff {n : Nat} {x y : Int} : rangeOk n x y = true ↔ 0 ≤ x ∧ y < n ∧ x ≤ y := by
  simp [rangeOk, and_assoc]

theorem queryOk_iff {n : Nat} {x : Int} : queryOk n x = true ↔ 0 ≤ x ∧ x < n := by simp [queryOk]

/-! ## The shared bodies of the mutations -/

/-- A single-pixel set that applies (R102, R110). -/
theorem setOne_spec {s : State} {t : Strip} (hs : s.strip = some t) (ht : t.Inv) {index : Int}
    (hi : inRange t.pixelCount index = true) (r g b : Byte) (br : Int) :
    ∃ t', setOne index r g b br s = .next (s.mutated t') ∧ t'.Inv ∧
      PixelsWritten t t' index.toNat (index.toNat + 1) r g b br := by
  obtain ⟨h0, h1⟩ := inRange_iff.1 hi
  obtain ⟨t', e, k, w⟩ := Strip.writePixel_spec ht.canonical ht.bijective (i := index.toNat) (by omega) r g b br
  exact ⟨t', by rw [setOne, State.withStrip_some hs, if_pos hi, e, State.commit_some],
    ht.pixelsWritten k w, w⟩

/-- A single-pixel set that does not apply (R100). -/
theorem setOne_noOp {s : State} {t : Strip} (hs : s.strip = some t) {index : Int}
    (hi : ¬ inRange t.pixelCount index = true) (r g b : Byte) (br : Int) :
    setOne index r g b br s = .next (s.answered .none) := by
  rw [setOne, State.withStrip_some hs, if_neg hi, State.noOp_eq]

/-- A range set that applies (R104). -/
theorem setMany_spec {s : State} {t : Strip} (hs : s.strip = some t) (ht : t.Inv) {start endEx : Int}
    (hr : rangeOk t.pixelCount start endEx = true) (r g b : Byte) (br : Int) :
    ∃ t', setMany start endEx r g b br s = .next (s.mutated t') ∧ t'.Inv ∧
      PixelsWritten t t' start.toNat endEx.toNat r g b br := by
  obtain ⟨h0, h1, h2⟩ := rangeOk_iff.1 hr
  obtain ⟨t', e, k, w⟩ := Strip.fillPixels_spec ht.canonical ht.bijective start.toNat r g b br
    (endEx - start).toNat (by omega)
  rw [show start.toNat + (endEx - start).toNat = endEx.toNat by omega] at w
  exact ⟨t', by rw [setMany, State.withStrip_some hs, if_pos hr, e, State.commit_some],
    ht.pixelsWritten k w, w⟩

/-- A range set that does not apply (R101). -/
theorem setMany_noOp {s : State} {t : Strip} (hs : s.strip = some t) {start endEx : Int}
    (hr : ¬ rangeOk t.pixelCount start endEx = true) (r g b : Byte) (br : Int) :
    setMany start endEx r g b br s = .next (s.answered .none) := by
  rw [setMany, State.withStrip_some hs, if_neg hr, State.noOp_eq]

/-- A whole-strip set (R106). -/
theorem setEvery_spec {s : State} {t : Strip} (hs : s.strip = some t) (ht : t.Inv) (r g b : Byte) (br : Int) :
    ∃ t', setEvery r g b br s = .next (s.mutated t') ∧ t'.Inv ∧
      PixelsWritten t t' 0 t.pixelCount r g b br := by
  obtain ⟨t', e, k, w⟩ := Strip.fillPixels_spec ht.canonical ht.bijective 0 r g b br t.pixelCount (by omega)
  rw [Nat.zero_add] at w
  exact ⟨t', by rw [setEvery, State.withStrip_some hs, e, State.commit_some], ht.pixelsWritten k w, w⟩

/-- `clear_strip` (R109). -/
theorem clearStrip_spec {s : State} {t : Strip} (hs : s.strip = some t) (ht : t.canonical) :
    ∃ t', execClearStrip s = .next (s.mutated t') ∧ Strip.sameConfig t t' ∧ t'.canonical ∧
      ∀ x, t'.readByte x = if x < t.size ∧ x % 4 ≠ 0 then some 0 else t.readByte x := by
  obtain ⟨t', e, c, k, r⟩ := Strip.clearPixels_spec ht t.pixelCount (Nat.le_refl _)
  exact ⟨t', by rw [execClearStrip, State.withStrip_some hs, e, State.commit_some], c, k, r⟩

/-! ## Rotation -/

/-- The source of a record is a pixel of the strip. -/
theorem rotateSource_lt (lower : Bool) {n : Nat} (hn : 0 < n) (k i : Nat) : rotateSource lower n k i < n := by
  cases lower
  · exact floorMod_lt _ hn
  · exact Nat.mod_lt _ hn

/-- `rotate` on a strip of two pixels or more, a reduced amount of zero included: every record comes from
the source R122 names. -/
theorem execRotate_spec {s : State} {t : Strip} (hs : s.strip = some t) (ht : t.canonical)
    (hn : 2 ≤ t.pixelCount) (p : Int) :
    ∃ t', execRotate p s = .next (s.mutated t') ∧ Strip.sameConfig t t' ∧ t'.canonical ∧
      ∀ i c, i < t.pixelCount → c < 4 →
        t'.readByte (4 * i + c) =
          t.readByte (4 * rotateSource s.cfg.rotPositiveTowardLower t.pixelCount
            (floorMod p t.pixelCount) i + c) := by
  by_cases hk : floorMod p t.pixelCount = 0
  · refine ⟨t, ?_, Strip.sameConfig.refl t, ht, fun i c hi hc => ?_⟩
    · rw [execRotate, State.withStrip_some hs, if_neg (by omega)]
      simp only [hk, if_true]
      simp [State.noOp, State.answer, State.mutated, State.respond, ← hs]
    · have : rotateSource s.cfg.rotPositiveTowardLower t.pixelCount 0 i = i := by
        unfold rotateSource
        split
        · exact Nat.mod_eq_of_lt (by omega)
        · have h1 : (i : Int) % (t.pixelCount : Int) = i := Int.emod_eq_of_lt (by omega) (by omega)
          simp [floorMod, h1]
      rw [hk, this]
  · obtain ⟨t', e, c', k', r'⟩ := Strip.moveRecords_spec (old := t) rfl ht
      (rotateSource s.cfg.rotPositiveTowardLower t.pixelCount (floorMod p t.pixelCount)) t.pixelCount
      (Nat.le_refl _) fun i _ => rotateSource_lt _ (by omega) _ i
    refine ⟨t', ?_, c', k', fun i c hi hc => ?_⟩
    · rw [execRotate, State.withStrip_some hs, if_neg (by omega)]
      simp only [hk, if_false]
      rw [e, State.commit_some]
    · rw [r', if_pos (by omega), show (4 * i + c) / 4 = i by omega, show (4 * i + c) % 4 = c by omega]

/-- `rotate` on a strip of at most one pixel (R121). -/
theorem execRotate_small {s : State} {t : Strip} (hs : s.strip = some t) (hn : t.pixelCount ≤ 1) (p : Int) :
    execRotate p s = .next (s.answered .none) := by
  rw [execRotate, State.withStrip_some hs, if_pos hn, State.noOp_eq]

/-! ## Show, queries and the dump -/

/-- `show` with a send capability, by the bytes it read (R130). -/
theorem execShowFrame_present {s : State} {t : Strip} (hs : s.strip = some t) (hp : t.send = true) :
    ∃ bytes, bytes.length = t.size ∧ (∀ j, j < t.size → bytes[j]? = t.readByte j) ∧
      execShowFrame s =
        .next (showResponse s.sinkAnswer (s.takeSinkAnswer.emitFrame (frameOf t.pixelCount bytes))) := by
  obtain ⟨bs, e, l, r⟩ := Strip.memRead_spec (t := t) (a := 0) (n := t.size) (by omega)
  refine ⟨bs, l, fun j hj => by simpa using r j hj, ?_⟩
  rw [execShowFrame, State.withStrip_some hs, if_pos hp, e]

/-- `show` without one (R130). -/
theorem execShowFrame_absent {s : State} {t : Strip} (hs : s.strip = some t) (hp : t.send = false) :
    execShowFrame s = .next (s.answered .none) := by
  rw [execShowFrame, State.withStrip_some hs, if_neg (by simp [hp]), State.noOp_eq]

/-- The colour of a pixel inside the strip can be read (R42). -/
theorem Strip.readColour_spec {t : Strip} {i : Nat} (hi : i < t.pixelCount) :
    ∃ r g b, t.readColour i = some (r, g, b) ∧ t.readByte (t.colourOffset i .red) = some r ∧
      t.readByte (t.colourOffset i .green) = some g ∧ t.readByte (t.colourOffset i .blue) = some b := by
  have hR := Strip.colourOffset_lt hi .red
  have hG := Strip.colourOffset_lt hi .green
  have hB := Strip.colourOffset_lt hi .blue
  exact ⟨_, _, _, by simp [Strip.readColour, Strip.readByte, hR, hG, hB], if_pos hR, if_pos hG, if_pos hB⟩

/-- A query inside the strip (R140). -/
theorem queryPixel_inside {s : State} {t : Strip} (hs : s.strip = some t) {index : Int}
    (hq : queryOk t.pixelCount index = true) (f : Byte → Byte → Byte → Payload) :
    ∃ r g b, t.readByte (t.colourOffset index.toNat .red) = some r ∧
      t.readByte (t.colourOffset index.toNat .green) = some g ∧
      t.readByte (t.colourOffset index.toNat .blue) = some b ∧
      queryPixel f index s = .next (s.answered (f r g b)) := by
  obtain ⟨h0, h1⟩ := queryOk_iff.1 hq
  obtain ⟨r, g, b, e, hr, hg, hb⟩ := Strip.readColour_spec (t := t) (i := index.toNat) (by omega)
  refine ⟨r, g, b, hr, hg, hb, ?_⟩
  rw [queryPixel, State.withStrip_some hs, if_pos hq, e]
  rfl

/-- A query outside the strip (R140, U1). -/
theorem queryPixel_outside {s : State} {t : Strip} (hs : s.strip = some t) {index : Int}
    (hq : ¬ queryOk t.pixelCount index = true) (f : Byte → Byte → Byte → Payload) :
    queryPixel f index s =
      if queryPastEnd s.cfg t.pixelCount index then
        .next (s.drawFree.answered (f (Packed.red (Config.freeColour s.freeCount))
          (Packed.green (Config.freeColour s.freeCount)) (Packed.blue (Config.freeColour s.freeCount))))
      else .next (s.answered .absent) := by
  rw [queryPixel, State.withStrip_some hs, if_neg hq]
  rfl

/-- `dump_array` (R153). -/
theorem execDumpArray_spec {s : State} {t : Strip} (hs : s.strip = some t) :
    ∃ bytes, bytes.length = t.size ∧ (∀ j, j < t.size → bytes[j]? = t.readByte j) ∧
      execDumpArray s = .next ((s.emitDump bytes).answered .none) := by
  obtain ⟨bs, e, l, r⟩ := Strip.memRead_spec (t := t) (a := 0) (n := t.size) (by omega)
  refine ⟨bs, l, fun j hj => by simpa using r j hj, ?_⟩
  rw [execDumpArray, State.withStrip_some hs, e]
  rfl

/-! ## Completion, shape by shape -/

/-- What every command on a strip has in common: it completes, answers exactly once, and keeps the
parameters, the pending inputs and the strip's configuration and invariant. -/
def Completes (s : State) (t : Strip) (res : Result) : Prop :=
  ∃ s', res = .next s' ∧ s'.cfg = s.cfg ∧ s'.inbox = s.inbox ∧
    (∃ rsp, s'.replies = s.replies ++ [.response rsp]) ∧
    ∃ t', s'.strip = some t' ∧ Strip.sameConfig t t' ∧ (t.Inv → t'.Inv)

/-- Beyond that, a command other than `show` answers `OK`, emits no frame and asks the sink nothing. -/
def CompletesQuietly (s : State) (t : Strip) (res : Result) : Prop :=
  ∃ s', res = .next s' ∧ s'.cfg = s.cfg ∧ s'.inbox = s.inbox ∧
    (∃ p, s'.replies = s.replies ++ [.response ⟨.ok, p⟩]) ∧ s'.frames = s.frames ∧
    s'.sinkAnswers = s.sinkAnswers ∧
    ∃ t', s'.strip = some t' ∧ Strip.sameConfig t t' ∧ (t.Inv → t'.Inv)

theorem CompletesQuietly.completes {s : State} {t : Strip} {res : Result} (h : CompletesQuietly s t res) :
    Completes s t res := by
  obtain ⟨s', h1, h2, h3, ⟨p, h4⟩, -, -, h5⟩ := h
  exact ⟨s', h1, h2, h3, ⟨⟨.ok, p⟩, h4⟩, h5⟩

theorem completes_answer {s : State} {t : Strip} (hs : s.strip = some t) (p : Payload) :
    CompletesQuietly s t (s.answer p) :=
  ⟨s.respond .ok p, rfl, rfl, rfl, ⟨p, rfl⟩, rfl, rfl, t, hs, Strip.sameConfig.refl t, id⟩

theorem completes_commit {s : State} {t t' : Strip} {o : Option Strip} (ho : o = some t')
    (hc : Strip.sameConfig t t') (hi : t.Inv → t'.Inv) : CompletesQuietly s t (s.commit o) := by
  subst ho
  exact ⟨s.mutated t', rfl, rfl, rfl, ⟨.none, rfl⟩, rfl, rfl, t', rfl, hc, hi⟩

/-- A mutation whose writes succeed on every strip, and keep the invariant where it holds. -/
theorem completes_mutation {s : State} {t : Strip} {o : Option Strip}
    (h : ∃ t', o = some t' ∧ Strip.sameConfig t t') (hi : t.Inv → ∃ t', o = some t' ∧ t'.Inv) :
    CompletesQuietly s t (s.commit o) := by
  obtain ⟨t', e, c⟩ := h
  refine completes_commit e c fun ht => ?_
  obtain ⟨u, e', hu⟩ := hi ht
  rw [e] at e'
  exact Option.some.inj e' ▸ hu

theorem setOne_completes {s : State} {t : Strip} (hs : s.strip = some t) (index : Int) (r g b : Byte)
    (br : Int) : CompletesQuietly s t (setOne index r g b br s) := by
  rw [setOne, State.withStrip_some hs]
  split
  · rename_i hi
    obtain ⟨h0, h1⟩ := inRange_iff.1 hi
    refine completes_mutation (Strip.writePixel_isSome (by omega) r g b br) fun ht => ?_
    obtain ⟨t', e, k, w⟩ := Strip.writePixel_spec ht.canonical ht.bijective (i := index.toNat) (by omega) r g b br
    exact ⟨t', e, ht.pixelsWritten k w⟩
  · exact completes_answer hs _

theorem fillPixels_completes {s : State} {t : Strip} {start n : Nat} (h : start + n ≤ t.pixelCount)
    (r g b : Byte) (br : Int) : CompletesQuietly s t (s.commit (t.fillPixels start r g b br n)) := by
  refine completes_mutation (Strip.fillPixels_isSome t start r g b br n h) fun ht => ?_
  obtain ⟨t', e, k, w⟩ := Strip.fillPixels_spec ht.canonical ht.bijective start r g b br n h
  exact ⟨t', e, ht.pixelsWritten k w⟩

theorem setMany_completes {s : State} {t : Strip} (hs : s.strip = some t) (start endEx : Int) (r g b : Byte)
    (br : Int) : CompletesQuietly s t (setMany start endEx r g b br s) := by
  rw [setMany, State.withStrip_some hs]
  split
  · rename_i hr
    obtain ⟨h0, h1, h2⟩ := rangeOk_iff.1 hr
    exact fillPixels_completes (by omega) r g b br
  · exact completes_answer hs _

theorem setEvery_completes {s : State} {t : Strip} (hs : s.strip = some t) (r g b : Byte) (br : Int) :
    CompletesQuietly s t (setEvery r g b br s) := by
  rw [setEvery, State.withStrip_some hs]
  exact fillPixels_completes (by omega) r g b br

/-- Clearing keeps the markers, moving records moves them whole: both keep the invariant (R37). -/
theorem Strip.Inv.ofMarkers {t t' : Strip} (h : t.Inv) (hc : Strip.sameConfig t t') (hk : t'.canonical)
    (hm : ∀ i, i < t.pixelCount → ∃ j, t'.readByte (4 * i) = t.readByte (4 * j)) : t'.Inv := by
  refine ⟨hk.1, hk.2, Strip.markersSet_iff.2 fun i v hv => ?_, h.of_sameConfig hc⟩
  by_cases hi : i < t.pixelCount
  · obtain ⟨j, hj⟩ := hm i hi
    exact Strip.markersSet_iff.1 h.2.2.1 j v (hj ▸ hv)
  · have : ¬ 4 * i < t'.size := by simp only [Strip.size, hc.1]; omega
    simp [Strip.readByte, this] at hv

theorem execClearStrip_completes {s : State} {t : Strip} (hs : s.strip = some t) :
    CompletesQuietly s t (execClearStrip s) := by
  rw [execClearStrip, State.withStrip_some hs]
  refine completes_mutation (Strip.clearPixels_isSome t _ (Nat.le_refl _)) fun ht => ?_
  obtain ⟨t', e, c, k, r⟩ := Strip.clearPixels_spec ht.canonical t.pixelCount (Nat.le_refl _)
  exact ⟨t', e, ht.ofMarkers c k fun i _ => ⟨i, by rw [r, if_neg (by omega)]⟩⟩

theorem execRotate_completes {s : State} {t : Strip} (hs : s.strip = some t) (p : Int) :
    CompletesQuietly s t (execRotate p s) := by
  rw [execRotate, State.withStrip_some hs]
  split
  · exact completes_answer hs _
  · rename_i hn
    dsimp only
    split
    · exact completes_answer hs _
    · have hsrc : ∀ i, i < t.pixelCount → rotateSource s.cfg.rotPositiveTowardLower t.pixelCount
          (floorMod p t.pixelCount) i < t.pixelCount := fun i _ => rotateSource_lt _ (by omega) _ i
      refine completes_mutation (Strip.moveRecords_isSome rfl _ _ (Nat.le_refl _) hsrc) fun ht => ?_
      obtain ⟨t', e, c, k, r⟩ := Strip.moveRecords_spec (old := t) rfl ht.canonical _ _ (Nat.le_refl _) hsrc
      refine ⟨t', e, ht.ofMarkers c k fun i hi => ⟨rotateSource s.cfg.rotPositiveTowardLower
        t.pixelCount (floorMod p t.pixelCount) i, ?_⟩⟩
      rw [r, if_pos (by omega), show 4 * i / 4 = i by omega, show 4 * i % 4 = 0 by omega, Nat.add_zero]

theorem queryPixel_completes {s : State} {t : Strip} (hs : s.strip = some t)
    (f : Byte → Byte → Byte → Payload) (index : Int) : CompletesQuietly s t (queryPixel f index s) := by
  by_cases hq : queryOk t.pixelCount index = true
  · obtain ⟨r, g, b, -, -, -, e⟩ := queryPixel_inside hs hq f
    rw [e, ← State.answer_eq]
    exact completes_answer hs _
  · rw [queryPixel_outside hs hq f]
    split
    · exact ⟨_, rfl, rfl, rfl, ⟨_, rfl⟩, rfl, rfl, t, hs, Strip.sameConfig.refl t, id⟩
    · exact completes_answer hs _

theorem execDumpArray_completes {s : State} {t : Strip} (hs : s.strip = some t) :
    CompletesQuietly s t (execDumpArray s) := by
  obtain ⟨bs, -, -, e⟩ := execDumpArray_spec hs
  rw [e]
  exact ⟨_, rfl, rfl, rfl, ⟨_, rfl⟩, rfl, rfl, t, hs, Strip.sameConfig.refl t, id⟩

theorem execShowFrame_completes {s : State} {t : Strip} (hs : s.strip = some t) :
    Completes s t (execShowFrame s) := by
  by_cases hp : t.send = true
  · obtain ⟨bs, -, -, e⟩ := execShowFrame_present hs hp
    rw [e]
    refine ⟨_, rfl, ?_, ?_, ?_, t, ?_, Strip.sameConfig.refl t, id⟩ <;>
      cases s.sinkAnswer <;> simp [showResponse, State.raiseSendFailure, hs]
  · rw [execShowFrame_absent hs (by simpa using hp), ← State.answer_eq]
    exact (completes_answer hs _).completes

/-- An operation that only answers from the strip. -/
theorem withStrip_answer_completes {s : State} {t : Strip} (hs : s.strip = some t) (f : Strip → Payload) :
    CompletesQuietly s t (s.withStrip fun t => s.answer (f t)) := by
  rw [State.withStrip_some hs]
  exact completes_answer hs _

end Sys2Proof.Machine
end

