-- ==== Sys2Proof/Laws/OrderString.lean ====
section
/-! SUPPORT. The laws of the channel-order string: its scan looks only at the letters that name a channel,
and a valid string has exactly three of them, pairwise different. -/

namespace Sys2Proof.Machine

/-- The channels an order string names, in order (R72, R74). -/
abbrev orderLetters (cs : List Char) : List Channel := cs.filterMap channelOf

theorem letterCount_eq (c : Channel) (cs : List Char) : letterCount c cs = (orderLetters cs).count c := by
  induction cs with
  | nil => rfl
  | cons ch cs ih =>
    simp only [letterCount, orderLetters, List.filterMap_cons, ih]
    cases h : channelOf ch with
    | none => simp
    | some d =>
      by_cases hd : d = c
      · simp [hd, Nat.add_comm]
      · simp [hd]

/-- The scan of a list of channels, the k-th getting offset k. -/
def rankScan : List Channel → BitVec 2 → ChannelMap → ChannelMap
  | [], _, m => m
  | c :: cs, k, m => rankScan cs (k + 1) (m.setOff c (k + 1))

theorem orderScan_eq (cs : List Char) (k : BitVec 2) (m : ChannelMap) :
    orderScan cs k m = rankScan (orderLetters cs) k m := by
  induction cs generalizing k m with
  | nil => rfl
  | cons ch cs ih =>
    simp only [orderScan, orderLetters, List.filterMap_cons]
    cases h : channelOf ch with
    | none => exact ih k m
    | some d => exact ih (k + 1) _

theorem orderValid_iff {extraOk : Bool} {cs : List Char} :
    orderValid extraOk cs = true ↔
      (∀ c, (orderLetters cs).count c = 1) ∧ (extraOk = true ∨ ∀ ch ∈ cs, channelOf ch ≠ none) := by
  simp only [orderValid, Bool.and_eq_true, beq_iff_eq, letterCount_eq, Bool.or_eq_true, List.all_eq_true,
    Option.isSome_iff_ne_none]
  constructor
  · rintro ⟨⟨⟨hr, hg⟩, hb⟩, he⟩
    exact ⟨fun c => by cases c <;> assumption, he⟩
  · rintro ⟨h, he⟩
    exact ⟨⟨⟨h _, h _⟩, h _⟩, he⟩

theorem length_eq_counts (ls : List Channel) :
    ls.length = ls.count .red + ls.count .green + ls.count .blue := by
  induction ls with
  | nil => rfl
  | cons c ls ih => cases c <;> simp [ih] <;> omega

/-- Each channel exactly once is three letters, pairwise different. -/
theorem letters_of_counts {ls : List Channel} (h : ∀ c, ls.count c = 1) :
    ∃ c1 c2 c3, ls = [c1, c2, c3] ∧ c1 ≠ c2 ∧ c1 ≠ c3 ∧ c2 ≠ c3 := by
  have hl := length_eq_counts ls
  rw [h, h, h] at hl
  match ls, hl with
  | [c1, c2, c3], _ =>
    refine ⟨c1, c2, c3, rfl, ?_⟩
    revert h
    cases c1 <;> cases c2 <;> cases c3 <;> intro h <;>
      first
        | exact ⟨by decide, by decide, by decide⟩
        | exact absurd (h .red) (by decide)
        | exact absurd (h .green) (by decide)

/-- Three letters, pairwise different, are each channel exactly once. -/
theorem counts_of_letters {c1 c2 c3 : Channel} (h12 : c1 ≠ c2) (h13 : c1 ≠ c3) (h23 : c2 ≠ c3) (c : Channel) :
    [c1, c2, c3].count c = 1 := by
  cases c1 <;> cases c2 <;> cases c3 <;> cases c <;> first | rfl | contradiction

/-- The scan of three different letters gives them offsets 1, 2, 3. -/
theorem rankScan_three {c1 c2 c3 : Channel} (h12 : c1 ≠ c2) (h13 : c1 ≠ c3) (h23 : c2 ≠ c3) (m : ChannelMap) :
    (rankScan [c1, c2, c3] 0 m).off c1 = 1 ∧ (rankScan [c1, c2, c3] 0 m).off c2 = 2 ∧
      (rankScan [c1, c2, c3] 0 m).off c3 = 3 ∧ (rankScan [c1, c2, c3] 0 m).bijective = true := by
  cases c1 <;> cases c2 <;> cases c3 <;> first | exact ⟨rfl, rfl, rfl, rfl⟩ | contradiction

/-- Whatever the argument, the map is a bijection onto {1, 2, 3} (R29, R193). -/
theorem orderMap_bijective (extraOk : Bool) (arg : Option (List Char)) :
    (orderMap extraOk arg).bijective = true := by
  cases arg with
  | none => rfl
  | some cs =>
    simp only [orderMap]
    split
    · rename_i h
      obtain ⟨c1, c2, c3, hl, h12, h13, h23⟩ := letters_of_counts (orderValid_iff.1 h).1
      rw [orderScan_eq, hl]
      exact (rankScan_three h12 h13 h23 _).2.2.2
    · rfl

/-- `N` is the raw count, or 0 where that is negative (R191). -/
theorem constructedCount_eq (n : Word) : (constructedCount n).toNat = (max 0 n.toInt).toNat := by
  unfold constructedCount
  split
  · simp; omega
  · rw [BitVec.toInt_eq_toNat_cond] at *
    split
    · simp_all
    · simp_all; omega

/-- The constructed count leaves the sign bit of `PIXEL_COUNT` clear (R27, R33). -/
theorem constructedCount_lt (n : Word) : (constructedCount n).toNat < 2 ^ 31 := by
  rw [constructedCount_eq]
  have := BitVec.toInt_lt (x := n)
  omega

/-- `GB` is the clamped brightness, 31 where it is omitted (R192). -/
theorem constructedBrightness_eq (gb : Option Word) :
    ((constructedBrightness gb).toNat : Int) = max 0 (min 31 (gb.getD 31).toInt) := by
  cases gb with
  | none => rfl
  | some x =>
    simp only [constructedBrightness, clamp31, Option.getD_some, BitVec.toNat_ofNat]
    split
    · omega
    · split <;> omega

/-- A constructed strip satisfies the invariants (R196). -/
theorem constructStrip_inv (cfg : Config) (args : ConstructArgs) (send : Bool) :
    (constructStrip cfg args send).Inv := by
  refine ⟨rfl, rfl, fun i hi => ?_, orderMap_bijective _ _,
    decide_eq_true (constructedCount_lt args.pixelCount)⟩
  simp [constructStrip, Memory.read, resetByte]

end Sys2Proof.Machine
end

