-- ==== Sys2Proof/Laws/PerInstr.lean ====
section
/-! SUPPORT. Statements made for every instruction, one lemma a constructor. Family OpAssigned: the encoder
gives an instruction one of the twenty assigned `op` values, never a reserved one (R81, R83). -/

namespace Sys2Proof.Laws.OpAssigned

/-- The record of the instruction has an `op` between 0x01 and 0x14. -/
def Statement (i : Instr) : Prop := 0x01 ≤ (encode i).op.toNat ∧ (encode i).op.toNat ≤ 0x14

theorem setPixel (index : Int) (r g b : Byte) (brightness : Int) :
    Statement (.setPixel index r g b brightness) := by
  simp [Statement, encode, Command.withOp]

theorem setPixelByPackedRgb (index rgb24 brightness : Int) :
    Statement (.setPixelByPackedRgb index rgb24 brightness) := by
  simp [Statement, encode, Command.withOp]

theorem setRange (start endExclusive : Int) (r g b : Byte) (brightness : Int) :
    Statement (.setRange start endExclusive r g b brightness) := by
  simp [Statement, encode, Command.withOp]

theorem setRangeByPackedRgb (start endExclusive rgb24 brightness : Int) :
    Statement (.setRangeByPackedRgb start endExclusive rgb24 brightness) := by
  simp [Statement, encode, Command.withOp]

theorem setAll (r g b : Byte) (brightness : Int) :
    Statement (.setAll r g b brightness) := by
  simp [Statement, encode, Command.withOp]

theorem setAllByPackedRgb (rgb24 brightness : Int) :
    Statement (.setAllByPackedRgb rgb24 brightness) := by
  simp [Statement, encode, Command.withOp]

theorem clearStrip : Statement .clearStrip := by
  unfold Statement; decide

theorem rotate (positions : Int) :
    Statement (.rotate positions) := by
  simp [Statement, encode, Command.withOp]

theorem showFrame : Statement .showFrame := by
  unfold Statement; decide

theorem getPixelColorStr (index : Int) :
    Statement (.getPixelColorStr index) := by
  simp [Statement, encode, Command.withOp]

theorem getPixelColorPacked (index : Int) :
    Statement (.getPixelColorPacked index) := by
  simp [Statement, encode, Command.withOp]

theorem getPixelColorTuple (index : Int) :
    Statement (.getPixelColorTuple index) := by
  simp [Statement, encode, Command.withOp]

theorem combineColor (r g b : Byte) :
    Statement (.combineColor r g b) := by
  simp [Statement, encode, Command.withOp]

theorem wheel (position : Byte) :
    Statement (.wheel position) := by
  simp [Statement, encode, Command.withOp]

theorem dumpArray : Statement .dumpArray := by
  unfold Statement; decide

theorem getPixelCount : Statement .getPixelCount := by
  unfold Statement; decide

theorem getGlobalBrightness : Statement .getGlobalBrightness := by
  unfold Statement; decide

theorem getChannelOrder : Statement .getChannelOrder := by
  unfold Statement; decide

theorem getSend : Statement .getSend := by
  unfold Statement; decide

theorem getMaxBrightness : Statement .getMaxBrightness := by
  unfold Statement; decide

end Sys2Proof.Laws.OpAssigned
end

