-- ==== Sys2Proof/Laws/Step.lean ====
section
/-! SUPPORT. What a construction and a step can do, each said once. -/

namespace Sys2Proof.Machine

/-- A construction that does not end in a refusal: the type error, or the new strip (R196, R197). -/
theorem construct_cases {args : ConstructArgs} {s s' : State} (h : execConstruct args s = .next s') :
    (args.send = .other ∧ s' = (s.setStrip none).reportConstruction .typeError) ∨
      ∃ send, (send = true ↔ args.send = .callable) ∧ args.send ≠ .other ∧
        s.cfg.admits (constructedCount args.pixelCount).toNat = true ∧
        s' = (s.setStrip (some (constructStrip s.cfg args send))).reportConstruction .constructed := by
  unfold execConstruct constructWith at h
  cases hsend : args.send <;> simp only [hsend] at h
  · split at h
    · rename_i ha
      exact .inr ⟨true, by simp, by simp, ha, by cases h; rfl⟩
    · cases h
  · split at h
    · rename_i ha
      exact .inr ⟨false, by simp, by simp, ha, by cases h; rfl⟩
    · cases h
  · exact .inl ⟨rfl, by cases h; rfl⟩

/-- A step that answers a next state is idle, constructs, or executes the decoded command. -/
theorem step_cases {s s' : State} (h : step s = .next s') :
    (s.inbox = [] ∧ s' = s) ∨
      (∃ args rest, s.inbox = .construct args :: rest ∧
        execConstruct args { s with inbox := rest } = .next s') ∨
      ∃ c rest i, s.inbox = .command c :: rest ∧ decode c = .ok i ∧
        exec i { s with inbox := rest } = .next s' := by
  unfold step at h
  split at h
  · cases h
    exact .inl ⟨by assumption, rfl⟩
  · exact .inr (.inl ⟨_, _, by assumption, h⟩)
  · split at h
    · exact .inr (.inr ⟨_, _, _, by assumption, by assumption, h⟩)
    · cases h

/-- A step faults only where a construction or an operation does. -/
theorem step_fault {s : State} {f : Fault} (h : step s = .fault f) :
    (∃ args rest, execConstruct args { s with inbox := rest } = .fault f) ∨
      ∃ i rest, exec i { s with inbox := rest } = .fault f := by
  unfold step at h
  split at h
  · cases h
  · exact .inl ⟨_, _, h⟩
  · split at h
    · exact .inr ⟨_, _, h⟩
    · cases h

/-- No construction faults. -/
theorem construct_no_fault (args : ConstructArgs) (s : State) (f : Fault) :
    execConstruct args s ≠ .fault f := by
  unfold execConstruct constructWith
  intro h
  split at h
  · cases h
  · split at h <;> cases h
  · split at h <;> cases h

end Sys2Proof.Machine
end

