-- ==== Sys2Proof/Tests/Slice0.lean ====
section
/-! SUPPORT. The model's own tests. Expected values are the spec's: 95_test_vectors.md and the examples of the
rules, each named where it stands. After them, a witness for the hypotheses of each statement. -/

namespace Sys2Proof.Machine.Tests

/-! ## Well-formedness: an ill-formed term for each check (R7, R79) -/

theorem test_wf_good : (Instr.setPixel (-1) 1 2 3 1000).wf = true ∧ (Instr.rotate 2147483647).wf = true ∧
    (Instr.rotate (-2147483648)).wf = true ∧ Instr.showFrame.wf = true := by decide

theorem test_wf_setPixel : (Instr.setPixel 2147483648 0 0 0 0).wf = false ∧
    (Instr.setPixel 0 0 0 0 2147483648).wf = false := by decide

theorem test_wf_setPixelPacked : (Instr.setPixelByPackedRgb (-2147483649) 0 0).wf = false ∧
    (Instr.setPixelByPackedRgb 0 2147483648 0).wf = false ∧
    (Instr.setPixelByPackedRgb 0 0 (-2147483649)).wf = false := by decide

theorem test_wf_setRange : (Instr.setRange 2147483648 0 0 0 0 0).wf = false ∧
    (Instr.setRange 0 2147483648 0 0 0 0).wf = false ∧ (Instr.setRange 0 0 0 0 0 2147483648).wf = false := by
  decide

theorem test_wf_setRangePacked : (Instr.setRangeByPackedRgb 2147483648 0 0 0).wf = false ∧
    (Instr.setRangeByPackedRgb 0 2147483648 0 0).wf = false ∧
    (Instr.setRangeByPackedRgb 0 0 2147483648 0).wf = false ∧
    (Instr.setRangeByPackedRgb 0 0 0 2147483648).wf = false := by decide

theorem test_wf_setAll : (Instr.setAll 0 0 0 2147483648).wf = false ∧
    (Instr.setAllByPackedRgb 2147483648 0).wf = false ∧ (Instr.setAllByPackedRgb 0 2147483648).wf = false := by
  decide

theorem test_wf_indexed : (Instr.rotate 2147483648).wf = false ∧
    (Instr.getPixelColorStr 2147483648).wf = false ∧ (Instr.getPixelColorPacked 2147483648).wf = false ∧
    (Instr.getPixelColorTuple (-2147483649)).wf = false := by decide

/-! ## Decoding: every constructor from a word written out field by field (R79, R81; layout log 2). The `op`
numbers are R81's; the operand values of the first lines are P1 and P2 of 95_test_vectors.md. -/

theorem test_decode_sets :
    decodeTableWord 165 (0x01 + 0x11 * 2 ^ 69 + 0x22 * 2 ^ 77 + 0x33 * 2 ^ 85 + 31 * 2 ^ 125) =
      some (.setPixel 0 0x11 0x22 0x33 31) ∧
    decodeTableWord 165 (0x02 + 3 * 2 ^ 5 + 0xAABBCC * 2 ^ 93 + 8 * 2 ^ 125) =
      some (.setPixelByPackedRgb 3 0xAABBCC 8) ∧
    decodeTableWord 165 (0x03 + 1 * 2 ^ 5 + 4 * 2 ^ 37 + 0x10 * 2 ^ 69 + 0x20 * 2 ^ 77 + 0x30 * 2 ^ 85 +
      31 * 2 ^ 125) = some (.setRange 1 4 0x10 0x20 0x30 31) := by decide

theorem test_decode_more_sets :
    decodeTableWord 165 (0x04 + 2 * 2 ^ 37 + 0xFF * 2 ^ 93 + 31 * 2 ^ 125) =
      some (.setRangeByPackedRgb 0 2 0xFF 31) ∧
    decodeTableWord 165 (0x05 + 9 * 2 ^ 69 + 8 * 2 ^ 77 + 7 * 2 ^ 85 + 0xFFFFFFFE * 2 ^ 125) =
      some (.setAll 9 8 7 (-2)) ∧
    decodeTableWord 165 (0x06 + 0xFFFFFFFF * 2 ^ 93 + 31 * 2 ^ 125) = some (.setAllByPackedRgb (-1) 31) := by
  decide

theorem test_decode_indexed :
    decodeTableWord 37 (0x08 + 0xFFFFFFF6 * 2 ^ 5) = some (.rotate (-10)) ∧
    decodeTableWord 37 (0x0A + 3 * 2 ^ 5) = some (.getPixelColorStr 3) ∧
    decodeTableWord 37 (0x0B + 5 * 2 ^ 5) = some (.getPixelColorPacked 5) ∧
    decodeTableWord 37 (0x0C + 0xFFFFFFFF * 2 ^ 5) = some (.getPixelColorTuple (-1)) := by decide

theorem test_decode_helpers :
    decodeTableWord 165 (0x0D + 255 * 2 ^ 69 + 128 * 2 ^ 77 + 64 * 2 ^ 85) = some (.combineColor 255 128 64) ∧
    decodeTableWord 165 (0x0E + 170 * 2 ^ 157) = some (.wheel 170) := by decide

theorem test_decode_plain :
    decodeTableWord 8 0x07 = some .clearStrip ∧ decodeTableWord 8 0x09 = some .showFrame ∧
    decodeTableWord 8 0x0F = some .dumpArray ∧ decodeTableWord 8 0x10 = some .getPixelCount ∧
    decodeTableWord 8 0x11 = some .getGlobalBrightness ∧ decodeTableWord 8 0x12 = some .getChannelOrder ∧
    decodeTableWord 8 0x13 = some .getSend ∧ decodeTableWord 8 0x14 = some .getMaxBrightness := by decide

/-- Every reserved `op` is rejected by name (R83). -/
theorem test_decode_reserved : ∀ op : BitVec 5, (op = 0 ∨ 0x15 ≤ op.toNat) →
    decode (Command.withOp op) = .error (.reservedOp op) := by decide

/-- Fields an operation does not use are ignored (R79). -/
theorem test_decode_ignores_unused : decode ⟨0x09, 7, 7, 7, 7, 7, 7, 7, 7⟩ = .ok .showFrame := by decide

/-! ## Small states -/

/-- Whether an outcome is a next state. -/
def isNext : Result → Bool
  | .next _ => true
  | _ => false

/-- The whole buffer of an outcome's strip. -/
def bufferOf : Result → Option (List Byte)
  | .next s => s.strip.bind fun t => t.memRead 0 t.size
  | _ => none

/-- The last reply of an outcome. -/
def replyOf : Result → Option Reply
  | .next s => s.replies.getLast?
  | _ => none

/-- The frames of an outcome. -/
def framesOf : Result → List (List Byte)
  | .next s => s.frames
  | _ => []

/-- A strip with these bytes, written one by one on a freshly constructed one. -/
def stripWith (n : Nat) (gb : BitVec 5) (m : ChannelMap) (send : Bool) (bytes : List Byte) : Strip :=
  ⟨BitVec.ofNat 32 n, gb, m, send, Memory.writeBytes [] 0 bytes⟩

/-- A machine with that strip and nothing else in it. -/
def withStripOf (t : Strip) : State := { State.reset with strip := some t }

/-- The default strip of four pixels after step 3 of P1. -/
def p1State : State := withStripOf (stripWith 4 31 ⟨3, 2, 1⟩ true
  [0xFF, 0x33, 0x22, 0x11, 0xE0, 0, 0, 0, 0xE0, 0, 0, 0, 0xE8, 0xCC, 0xBB, 0xAA])

/-- A fresh strip of five pixels, `GB = 16`, order "rgb" (P2, V-RANGE). -/
def p2State : State := withStripOf (stripWith 5 16 ⟨1, 2, 3⟩ true [])

/-- A fresh default strip of one pixel, and one of two with `GB = 10`. -/
def oneState : State := withStripOf (stripWith 1 31 ⟨3, 2, 1⟩ true [])
def tenState : State := withStripOf (stripWith 2 10 ⟨3, 2, 1⟩ true [])

/-- The default strip of four pixels, fresh. -/
def fresh4 : State := withStripOf (stripWith 4 31 ⟨3, 2, 1⟩ true [])

/-- P4's strip: `GB = 20`, order "GRB", with and without a sink. -/
def p4State (send : Bool) : State := withStripOf (stripWith 2 20 ⟨2, 1, 3⟩ send
  [0xF4, 0x80, 0xFF, 0x40, 0xE0, 0, 0, 0])

/-- No strip. -/
def bare : State := { State.reset with strip := none }

/-! ## Every table row runs as the first command after reset -/

theorem test_every_row_runs : ∀ k < 20, isNext (step (State.reset.withFetchWord 8 (k + 1))) = true := by decide

theorem test_reserved_is_refused : isNext (step (State.reset.withFetchWord 8 0x15)) = false := by decide

/-! ## Mutation -/

/-- V-SET step 1, and the corner `br = 20` of V-SET on one pixel. -/
theorem test_set_pixel :
    bufferOf (exec (.setPixel 0 0x11 0x22 0x33 31) fresh4) =
      some [0xFF, 0x33, 0x22, 0x11, 0xE0, 0, 0, 0, 0xE0, 0, 0, 0, 0xE0, 0, 0, 0] ∧
    bufferOf (exec (.setPixel 0 1 2 3 20) oneState) = some [0xF4, 3, 2, 1] := by decide

/-- V-SET steps 3 and 4: outside the strip nothing happens, silently. -/
theorem test_set_pixel_outside :
    exec (.setPixel 4 1 2 3 31) fresh4 = fresh4.noOp ∧ exec (.setPixel (-1) 1 2 3 31) fresh4 = fresh4.noOp :=
  ⟨rfl, rfl⟩

/-- V-SET step 2 and V-PACK: high bits discarded. -/
theorem test_set_pixel_packed :
    bufferOf (exec (.setPixelByPackedRgb 3 0xAABBCC 8) fresh4) =
      some [0xE0, 0, 0, 0, 0xE0, 0, 0, 0, 0xE0, 0, 0, 0, 0xE8, 0xCC, 0xBB, 0xAA] ∧
    bufferOf (exec (.setPixelByPackedRgb 0 0x1FF8040 31) oneState) = some [0xFF, 0x40, 0x80, 0xFF] ∧
    bufferOf (exec (.setPixelByPackedRgb 0 (-1) 31) oneState) = some [0xFF, 0xFF, 0xFF, 0xFF] := by decide

/-- V-RANGE row 1. -/
theorem test_set_range :
    bufferOf (exec (.setRange 1 4 0x10 0x20 0x30 31) p2State) =
      some [0xE0, 0, 0, 0, 0xF0, 0x10, 0x20, 0x30, 0xF0, 0x10, 0x20, 0x30, 0xF0, 0x10, 0x20, 0x30,
        0xE0, 0, 0, 0] := by decide

/-- V-RANGE rows 2 to 4, 6 and 8. -/
theorem test_set_range_bounds :
    exec (.setRange 0 5 0xFF 0xFF 0xFF 31) p2State = p2State.noOp ∧
    exec (.setRange 3 2 9 9 9 31) p2State = p2State.noOp ∧
    exec (.setRange (-1) 2 9 9 9 31) p2State = p2State.noOp ∧
    exec (.setRange 4 4 9 9 9 31) p2State = p2State.noOp ∧
    exec (.setRange 0 6 9 9 9 31) p2State = p2State.noOp := ⟨rfl, rfl, rfl, rfl, rfl⟩

/-- R105's example (pixels 0 and 1 of a default strip), and V-RANGE row 7. -/
theorem test_set_range_packed :
    bufferOf (exec (.setRangeByPackedRgb 0 2 0x0000FF 31) fresh4) =
      some [0xFF, 0xFF, 0, 0, 0xFF, 0xFF, 0, 0, 0xE0, 0, 0, 0, 0xE0, 0, 0, 0] ∧
    bufferOf (exec (.setRangeByPackedRgb 0 5 0xFFFFFF 31) p2State) =
      some [0xE0, 0, 0, 0, 0xE0, 0, 0, 0, 0xE0, 0, 0, 0, 0xE0, 0, 0, 0, 0xE0, 0, 0, 0] := by decide

/-- V-ALL (N = 3), and the `GB = 10` rows of V-SET: 16 gives 5, -2 gives 0. -/
theorem test_set_all :
    bufferOf (exec (.setAll 255 0 0 31) State.reset) =
      some [0xFF, 0, 0, 0xFF, 0xFF, 0, 0, 0xFF, 0xFF, 0, 0, 0xFF] ∧
    bufferOf (exec (.setAll 1 2 3 16) tenState) = some [0xE5, 3, 2, 1, 0xE5, 3, 2, 1] ∧
    bufferOf (exec (.setAll 1 2 3 (-2)) tenState) = some [0xE0, 3, 2, 1, 0xE0, 3, 2, 1] := by decide

/-- V-ALL, packed (on the two pixels with `GB = 10`: marker EA by V-SET). -/
theorem test_set_all_packed :
    bufferOf (exec (.setAllByPackedRgb 0x102030 31) tenState) =
      some [0xEA, 0x30, 0x20, 0x10, 0xEA, 0x30, 0x20, 0x10] := by decide

/-- V-CLEAR. -/
theorem test_clear_strip :
    bufferOf (exec .clearStrip (withStripOf (stripWith 2 31 ⟨3, 2, 1⟩ true
      [0xFF, 7, 8, 9, 0xE3, 1, 1, 1]))) = some [0xFF, 0, 0, 0, 0xE3, 0, 0, 0] := by decide

/-- V-SCALE, the columns GB = 16, 10, 30 at the rows 2, 15, 30. -/
theorem test_scale : scale 2 16 = 1 ∧ scale 15 16 = 7 ∧ scale 30 16 = 15 ∧ scale 15 10 = 4 ∧
    scale 30 10 = 9 ∧ scale 1 30 = 0 ∧ scale (-5) 31 = 0 ∧ scale 1000 1 = 1 := by decide

/-! ## Rotation -/

/-- P1 steps 6 and 8. -/
theorem test_rotate :
    bufferOf (exec (.rotate 1) p1State) = some
      [0xE0, 0, 0, 0, 0xE0, 0, 0, 0, 0xE8, 0xCC, 0xBB, 0xAA, 0xFF, 0x33, 0x22, 0x11] ∧
    bufferOf (exec (.rotate 3) p1State) = some
      [0xE8, 0xCC, 0xBB, 0xAA, 0xFF, 0x33, 0x22, 0x11, 0xE0, 0, 0, 0, 0xE0, 0, 0, 0] := by decide

/-- The other direction is the row of `-positions` (V-ROT), and one pixel never moves (R121). -/
theorem test_rotate_direction :
    bufferOf (exec (.rotate 1) { p1State with cfg := { Config.standard with rotPositiveTowardLower := false } })
      = some [0xE8, 0xCC, 0xBB, 0xAA, 0xFF, 0x33, 0x22, 0x11, 0xE0, 0, 0, 0, 0xE0, 0, 0, 0] ∧
    isNext (exec (.rotate 7) oneState) = true ∧ exec (.rotate 7) oneState = oneState.noOp :=
  ⟨by decide, by decide, rfl⟩

/-- V-ROT: N = 5, positions -2 and 7; N = 6, positions 100: the old index at 0. -/
theorem test_rotate_source : rotateSource true 5 (floorMod (-2) 5) 0 = 3 ∧
    rotateSource true 5 (floorMod 7 5) 0 = 2 ∧ rotateSource true 6 (floorMod 100 6) 0 = 4 ∧
    rotateSource false 5 (floorMod 1 5) 0 = 4 := by decide

/-- R125's example: `N = 5`, `k = 3` is performed as 2 toward higher indices; the order is 3 4 0 1 2. -/
theorem test_minimal_work : minimalWorkRotate true 5 3
    [0, 0, 0, 0, 1, 1, 1, 1, 2, 2, 2, 2, 3, 3, 3, 3, 4, 4, 4, 4] =
      [3, 3, 3, 3, 4, 4, 4, 4, 0, 0, 0, 0, 1, 1, 1, 1, 2, 2, 2, 2] := by decide

/-! ## Show -/

/-- P1 step 5: the 21 bytes of F1, sink answering success. -/
theorem test_show :
    framesOf (exec .showFrame { p1State with sinkAnswers := [true] }) = [[0, 0, 0, 0, 0xFF, 0x33, 0x22, 0x11,
      0xE0, 0, 0, 0, 0xE0, 0, 0, 0, 0xE8, 0xCC, 0xBB, 0xAA, 0]] ∧
    replyOf (exec .showFrame { p1State with sinkAnswers := [true] }) = some (.response ⟨.ok, .none⟩) := by
  decide

/-- P4: no sink is a no-op; a failing sink gets F4 once and is reported. -/
theorem test_show_absent_and_failing :
    exec .showFrame (p4State false) = (p4State false).noOp ∧
    framesOf (exec .showFrame { p4State true with sinkAnswers := [false] }) =
      [[0, 0, 0, 0, 0xF4, 0x80, 0xFF, 0x40, 0xE0, 0, 0, 0, 0]] ∧
    replyOf (exec .showFrame { p4State true with sinkAnswers := [false] }) =
      some (.response ⟨.sendFailure, .none⟩) := ⟨rfl, by decide, by decide⟩

/-- V-FRAME: end bytes of 0, 1, 16, 17, 300 pixels. -/
theorem test_end_frame : ceil16 0 = 0 ∧ ceil16 1 = 1 ∧ ceil16 16 = 1 ∧ ceil16 17 = 2 ∧ ceil16 300 = 19 := by
  decide

/-! ## Queries, helpers, dump, properties -/

/-- V-QUERY, strings: inside, and at `index = N`. -/
theorem test_query_str :
    replyOf (exec (.getPixelColorStr 3) p1State) =
      some (.response ⟨.ok, .string ['#', 'A', 'A', 'B', 'B', 'C', 'C']⟩) ∧
    replyOf (exec (.getPixelColorStr 4) p1State) = some (.response ⟨.ok, .absent⟩) := by decide

/-- V-QUERY, packed. -/
theorem test_query_packed :
    replyOf (exec (.getPixelColorPacked 0) p1State) = some (.response ⟨.ok, .int 1122867⟩) ∧
    replyOf (exec (.getPixelColorPacked 5) p1State) = some (.response ⟨.ok, .absent⟩) := by decide

/-- V-QUERY, tuples; R143's example under the two maps. -/
theorem test_query_tuple :
    replyOf (exec (.getPixelColorTuple 0) p1State) = some (.response ⟨.ok, .triple 17 34 51⟩) ∧
    replyOf (exec (.getPixelColorTuple 0) (withStripOf (stripWith 1 16 ⟨1, 2, 3⟩ true
      [0xF0, 0x10, 0x20, 0x30]))) = some (.response ⟨.ok, .triple 16 32 48⟩) ∧
    replyOf (exec (.getPixelColorTuple (-1)) p1State) = some (.response ⟨.ok, .absent⟩) := by decide

/-- R66, V-QUERY: hexadecimal formatting. -/
theorem test_colour_string :
    colourString 10 11 12 = .string ['#', '0', 'A', '0', 'B', '0', 'C'] ∧
    colourString 255 128 10 = .string ['#', 'F', 'F', '8', '0', '0', 'A'] := by decide

/-- V-COMBINE. -/
theorem test_combine_color :
    replyOf (exec (.combineColor 255 128 64) oneState) = some (.response ⟨.ok, .int 16744512⟩) ∧
    replyOf (exec (.combineColor 1 2 3) oneState) = some (.response ⟨.ok, .int 66051⟩) := by decide

/-- V-WHEEL at the ends of the bands. -/
theorem test_wheel : wheelFormula 0 = 0x00FF00 ∧ wheelFormula 84 = 0xFC0300 ∧ wheelFormula 85 = 0xFF0000 ∧
    wheelFormula 169 = 0x0300FC ∧ wheelFormula 170 = 0x0000FF ∧ wheelFormula 255 = 0x00FF00 := by decide

theorem test_wheel_exec :
    replyOf (exec (.wheel 127) oneState) = some (.response ⟨.ok, .int 0x81007E⟩) := by decide

/-- A table that is dark at every position runs through no band (R150). -/
theorem test_wheel_law : ¬ Config.lawful { Config.standard with wheelTable := some (Vector.replicate 256 0) } := by
  decide

/-- R153: no change of the strip, the raw bytes in buffer order. -/
theorem test_dump_array :
    replyOf (exec .dumpArray oneState) = some (.response ⟨.ok, .none⟩) ∧
    bufferOf (exec .dumpArray oneState) = some [0xE0, 0, 0, 0] ∧
    (match exec .dumpArray oneState with | .next s => s.dumps | _ => []) = [[0xE0, 0, 0, 0]] := by decide

/-- V-PROP, the strip `construct(2, sink, 20, "GRB")`. -/
theorem test_properties :
    replyOf (exec .getPixelCount (p4State true)) = some (.response ⟨.ok, .int 2⟩) ∧
    replyOf (exec .getGlobalBrightness (p4State true)) = some (.response ⟨.ok, .int 20⟩) ∧
    replyOf (exec .getChannelOrder (p4State true)) = some (.response ⟨.ok, .triple 2 1 3⟩) ∧
    replyOf (exec .getSend (p4State true)) = some (.response ⟨.ok, .bool true⟩) ∧
    replyOf (exec .getMaxBrightness (p4State true)) = some (.response ⟨.ok, .int 31⟩) := by decide

/-! ## Construction -/

/-- V-CONSTRUCT, the rows -4; 100 without a sink; -3; 20 with "GRB"; "rrgb". -/
theorem test_construct :
    constructStrip Config.standard ⟨-4, .callable, none, none⟩ true = ⟨0, 31, ⟨3, 2, 1⟩, true, []⟩ ∧
    constructStrip Config.standard ⟨1, .absent, some 100, none⟩ false = ⟨1, 31, ⟨3, 2, 1⟩, false, []⟩ ∧
    constructStrip Config.standard ⟨1, .callable, some (-3), none⟩ true = ⟨1, 0, ⟨3, 2, 1⟩, true, []⟩ ∧
    constructStrip Config.standard ⟨2, .callable, some 20, some ['G', 'R', 'B']⟩ true =
      ⟨2, 20, ⟨2, 1, 3⟩, true, []⟩ ∧
    constructStrip Config.standard ⟨2, .callable, some 31, some ['r', 'r', 'g', 'b']⟩ true =
      ⟨2, 31, ⟨3, 2, 1⟩, true, []⟩ := by decide

/-- V-CONSTRUCT, the last row: neither callable nor none. -/
theorem test_construct_type_error :
    replyOf (execConstruct ⟨2, .other, none, none⟩ bare) = some (.construction .typeError) ∧
    bufferOf (execConstruct ⟨3, .callable, none, none⟩ bare) =
      some [0xE0, 0, 0, 0, 0xE0, 0, 0, 0, 0xE0, 0, 0, 0] := by decide

/-- V-ORDER-1. -/
theorem test_order_strings :
    orderMap true (some "rgb".toList) = ⟨1, 2, 3⟩ ∧ orderMap true (some "Gbr".toList) = ⟨3, 1, 2⟩ ∧
    orderMap true (some "brg".toList) = ⟨2, 3, 1⟩ ∧ orderMap true (some "r-g-b".toList) = ⟨1, 2, 3⟩ ∧
    orderMap false (some "rgbw".toList) = ⟨3, 2, 1⟩ ∧ orderMap true (some "rgbr".toList) = ⟨3, 2, 1⟩ ∧
    orderMap true (some "rg".toList) = ⟨3, 2, 1⟩ := by decide

/-! ## Assembler text (P1, P2, V-CONSTRUCT) -/

theorem test_assemble :
    assemble "set_pixel_by_packed_rgb(3, 0xAABBCC, 8)".toList = some (.setPixelByPackedRgb 3 0xAABBCC 8) ∧
    assemble "rotate(-1)".toList = some (.rotate (-1)) ∧ assemble "show()".toList = some .showFrame ∧
    assemble "set_pixel(0, 256, 0, 0)".toList = none ∧ assemble "blink()".toList = none ∧
    assemble "rotate(2147483648)".toList = none := by decide

theorem test_assemble_construct :
    assembleConstruct "construct(2, sink, 20, \"GRB\")".toList =
      some ⟨2, .callable, some 20, some ['G', 'R', 'B']⟩ ∧
    assembleConstruct "construct(4, sink)".toList = some ⟨4, .callable, none, none⟩ ∧
    assembleConstruct "construct(2, 42)".toList = some ⟨2, .other, none, none⟩ := by decide

/-- The raw count is an `IW`-bit signed operand (R7, D1): its largest value, and one that does not fit. -/
theorem test_construct_count :
    (constructStrip Config.standard ⟨0x7FFFFFFF, .callable, none, none⟩ true).pixelCount = 2147483647 ∧
    (assembleConstruct "construct(2147483648, sink)".toList) = none := by decide

/-! ## Witnesses: the hypotheses of each statement are met together by a concrete state -/

/-- The strip of a test state. -/
theorem witness_invariants : (stripWith 4 31 ⟨3, 2, 1⟩ true [0xFF, 0x33, 0x22, 0x11]).Inv ∧
    (stripWith 5 16 ⟨1, 2, 3⟩ true []).Inv ∧ (stripWith 1 31 ⟨3, 2, 1⟩ true []).Inv ∧
    (stripWith 0 31 ⟨3, 2, 1⟩ true []).Inv := by decide

/-- StepRunsDecodedCommand, ReservedOpIsRefused (both sides), StepTakesOldestInput. -/
theorem witness_commands : (State.reset.withFetchWord 8 9).inbox = .command (tableCommand 8 9) :: [] ∧
    decode (tableCommand 8 9) = .ok .showFrame ∧
    (State.reset.withFetchWord 8 0x1F).inbox = .command (tableCommand 8 0x1F) :: [] ∧
    (tableCommand 8 0x15).op.toNat = 0x15 ∧ (tableCommand 8 0).op = 0 ∧
    (tableCommand 8 0x1F).op.toNat = 0x1F ∧ (tableCommand 8 0x14).op.toNat = 0x14 := by decide

/-- StepIdlesOrConstructs and StepTakesOldestInput: an idle state, and a pending construction. -/
theorem witness_idle_and_construct : State.reset.inbox = [] ∧ step State.reset = .next State.reset ∧
    (∃ args, { State.reset with inbox := [.construct args] }.inbox = .construct args :: []) ∧
    ∃ s', step { State.reset with inbox := [.construct ⟨3, .callable, none, none⟩] } = .next s' :=
  ⟨rfl, rfl, ⟨⟨3, .callable, none, none⟩, rfl⟩, ⟨_, rfl⟩⟩

/-- DecodeEncodeRoundTrip and DecodedIsWellFormed, at the ends of the operand range. -/
theorem witness_wf : (Instr.setRange (-2147483648) 2147483647 0 255 0 2147483647).wf = true ∧
    decode (encode (.rotate (-2147483648))) = .ok (.rotate (-2147483648)) := by decide

/-- StepKeepsInvariant: a state with the invariant that steps. -/
theorem witness_invariant_step : (p1State.withFetchWord 8 7).Inv ∧
    isNext (step (p1State.withFetchWord 8 7)) = true :=
  ⟨⟨Config.standard_lawful, (by decide : (stripWith 4 31 ⟨3, 2, 1⟩ true
    [0xFF, 0x33, 0x22, 0x11, 0xE0, 0, 0, 0, 0xE0, 0, 0, 0, 0xE8, 0xCC, 0xBB, 0xAA]).Inv), rfl⟩, by decide⟩

/-- EveryCommandAnswersOnce, ConfigurationIsReadOnly, OnlyShowEmitsOrFails, ReadsKeepTheStrip. -/
theorem witness_exec_next : (∃ t, p1State.strip = some t) ∧
    (∃ s', exec .clearStrip p1State = .next s') ∧ Instr.clearStrip ≠ Instr.showFrame ∧
    Instr.readsOnly .dumpArray = true ∧ ∃ s', exec .dumpArray p1State = .next s' :=
  ⟨⟨_, rfl⟩, ⟨_, rfl⟩, by decide, rfl, ⟨_, rfl⟩⟩

/-- WritesAreIdempotent. -/
theorem witness_idempotent : Instr.idempotentWrite (.setPixel 0 1 2 3 4) = true ∧
    (∃ t, fresh4.strip = some t ∧ t.Inv) := ⟨rfl, _, rfl, by decide⟩

/-- CommandsNeedAStrip. -/
theorem witness_bare : bare.strip = none := rfl

/-- ConstructBuildsStrip, ConstructedBufferIsDark: inputs at the ends of their ranges. -/
theorem witness_construct : Config.standard.admits (max 0 (-4) : Int).toNat = true ∧
    Config.standard.admits 0 = true ∧ SendArg.callable ≠ .other ∧ SendArg.absent ≠ .other ∧
    ∃ s' t, execConstruct ⟨3, .absent, some 31, none⟩ bare = .next s' ∧ s'.strip = some t :=
  ⟨by decide, by decide, by decide, by decide, _, _, rfl, rfl⟩

/-- ConstructTypeErrorLeavesNoStrip, ConstructAboveNmaxIsRefused (one above the limit). -/
theorem witness_construct_stops : (ConstructArgs.mk 2 .other none none).send = .other ∧
    ({ Config.standard with nmax := some 3 } : Config).nmax = some 3 ∧ ((3 : Nat) : Int) < 4 ∧
    execConstruct ⟨4, .callable, none, none⟩ { bare with cfg := { Config.standard with nmax := some 3 } } =
      .refused .aboveNmax := ⟨rfl, rfl, by decide, rfl⟩

/-- OrderStringGivesRanks, each clause: "gbr", "rrgb", and "rgbw" without extra characters. -/
theorem witness_order : "gbr".toList.filterMap channelOf = [.green, .blue, .red] ∧
    ("rrgb".toList.filterMap channelOf).count .red ≠ 1 ∧
    (∃ ch ∈ "rgbw".toList, channelOf ch = none) :=
  ⟨by decide, by decide, ⟨'w', by decide, by decide⟩⟩

/-- The bounds of the indexed operations on four pixels: 0 and 3 are inside, -1 and 4 outside
(SetPixelWritesOnePixel, SetPixelPackedWritesOnePixel, StoredBrightnessIsScaled, SetThenGetReturnsColour,
the three queries; 5 is past `N`). -/
theorem witness_index_bounds : (∃ t, fresh4.strip = some t ∧ t.Inv ∧
    (0 ≤ (0 : Int) ∧ (0 : Int) < t.pixelCount) ∧ (0 ≤ (3 : Int) ∧ (3 : Int) < t.pixelCount) ∧
    (-1 : Int) < 0 ∧ (t.pixelCount : Int) ≤ 4 ∧ (4 : Int) = t.pixelCount ∧ (t.pixelCount : Int) < 5) ∧
    fresh4.cfg.queryBoundInclusive = false := by
  refine ⟨⟨_, rfl, by decide, ?_⟩, rfl⟩
  decide

/-- The stored brightness at `GB` 31 and 0 (StoredBrightnessIsScaled). -/
theorem witness_brightness : (stripWith 1 31 ⟨3, 2, 1⟩ true []).globalBrightness = 31 ∧
    (stripWith 1 0 ⟨3, 2, 1⟩ true []).globalBrightness = 0 ∧ (stripWith 1 0 ⟨3, 2, 1⟩ true []).Inv := by decide

/-- The bounds of the range operations on five pixels (SetRangeWritesRange, SetRangePackedWritesRange):
(0, 4) and (4, 4) apply; -1, 5 and (3, 2) do not. -/
theorem witness_range_bounds : ∃ t, p2State.strip = some t ∧ t.Inv ∧
    ((4 : Int) < t.pixelCount ∧ (0 : Int) ≤ 4) ∧ (-1 : Int) < 0 ∧ (t.pixelCount : Int) ≤ 5 ∧ (2 : Int) < 3 :=
  ⟨_, rfl, by decide, by decide⟩

/-- RangeNeverWritesLastPixel: the widest range that applies. -/
theorem witness_last_pixel : ∃ s' t t', p2State.strip = some t ∧ t.Inv ∧ 1 ≤ t.pixelCount ∧
    exec (.setRange 0 4 1 2 3 31) p2State = .next s' ∧ s'.strip = some t' :=
  ⟨_, _, _, rfl, by decide, by decide, rfl, rfl⟩

/-- SetAllWritesEveryPixel, SetAllPackedWritesEveryPixel, ClearStripKeepsMarkers, RotateBackRestores,
RotationsAdd, FullCycleRotationIsNoOp, and with two pixels or more RotateMovesRecords,
MinimalWorkRotationAgrees; RotateSmallStripIsNoOp with one. -/
theorem witness_whole_strip : (∃ t, fresh4.strip = some t ∧ t.Inv ∧ 2 ≤ t.pixelCount) ∧
    (∃ t, tenState.strip = some t ∧ t.Inv ∧ 2 ≤ t.pixelCount) ∧
    ∃ t, oneState.strip = some t ∧ t.Inv ∧ t.pixelCount ≤ 1 :=
  ⟨⟨_, rfl, by decide, by decide⟩, ⟨_, rfl, by decide, by decide⟩, ⟨_, rfl, by decide, by decide⟩⟩

/-- RotateMovesRecords, the record clause in both directions: on four pixels, by 5, the last record takes the
old record 0, or 2. -/
theorem witness_rotate_clause : (0 : Int) = ((3 : Int) + 5) % 4 ∧ (2 : Int) = ((3 : Int) - 5) % 4 := by decide

/-- ShowSendsOneWholeFrame, FailedShowKeepsTheStrip, EqualBuffersEmitEqualFrames, ShowWithoutSendIsNoOp. -/
theorem witness_show : (∃ t, (p4State true).strip = some t ∧ t.send = true) ∧
    (∃ t, (p4State false).strip = some t ∧ t.send = false) ∧
    ({ p4State true with sinkAnswers := [false, true] } : State).sinkAnswers = false :: [true] ∧
    ∃ t1 t2, oneState.strip = some t1 ∧ (withStripOf (stripWith 1 5 ⟨1, 2, 3⟩ true [])).strip = some t2 ∧
      t1.pixelCount = t2.pixelCount ∧ ∀ a, t1.readByte a = t2.readByte a :=
  ⟨⟨_, rfl, rfl⟩, ⟨_, rfl, rfl⟩, rfl, _, _, rfl, rfl, rfl, fun _ => rfl⟩

/-- ConstructedSendDecidesShow, with a sink and without. -/
theorem witness_constructed_send : ∃ s1 t1 s2 t2,
    execConstruct ⟨3, .callable, none, none⟩ bare = .next s1 ∧ s1.strip = some t1 ∧
    execConstruct ⟨3, .absent, none, none⟩ bare = .next s2 ∧ s2.strip = some t2 :=
  ⟨_, _, _, _, rfl, rfl, rfl, rfl⟩

/-- LawfulWheelRunsThroughItsBands: the default is lawful, and the bands meet the clauses' ranges. -/
theorem witness_lawful : Config.lawful Config.standard ∧ oneState.cfg = Config.standard ∧
    (∃ t, oneState.strip = some t) ∧ (84 < 85 ∧ 85 ≤ 85 ∧ 169 < 170 ∧ 170 ≤ 170 ∧ 255 < 256) :=
  ⟨Config.standard_lawful, rfl, ⟨_, rfl⟩, by decide⟩

/-- InclusiveQueryAnswersSomeColour. -/
theorem witness_inclusive :
    ({ fresh4 with cfg := { Config.standard with queryBoundInclusive := true } } : State).cfg.queryBoundInclusive
      = true := rfl

/-- WheelFollowsItsBands: each band at its ends, and an implementation with a table; CombineColorPacks,
CombineThenSetIsSetPixel, DumpShowsRawBytes, PropertyReadsAnswer, OrderAndSendReadsAnswer and QueriesAgree
ask for a strip alone (witness_index_bounds). -/
theorem witness_wheel : oneState.cfg.wheelTable = none ∧ (0 : Byte).toNat < 85 ∧ (84 : Byte).toNat < 85 ∧
    85 ≤ (85 : Byte).toNat ∧ (169 : Byte).toNat < 170 ∧ 170 ≤ (170 : Byte).toNat ∧ 170 ≤ (255 : Byte).toNat ∧
    ∃ w, ({ Config.standard with wheelTable := some (Vector.replicate 256 0) } : Config).wheelTable = some w :=
  ⟨rfl, by decide, by decide, by decide, by decide, by decide, by decide, _, rfl⟩

end Sys2Proof.Machine.Tests
end

section
/-! SUPPORT. The step on a command, the construction above `NMAX`, and the brightness a `set_pixel`
stores. -/

namespace Sys2Proof.Machine

/-! ## The step on a command and the construction above the limit -/

/-- A pending command that decodes is executed once it is taken from the inbox (R4, R47). -/
theorem step_command {s : State} {c : Command} {rest : List HostEvent} {i : Instr}
    (hin : s.inbox = .command c :: rest) (hdec : decode c = .ok i) :
    step s = exec i { s with inbox := rest } := by
  simp only [step, hin, hdec]

/-- Settles O1: it is the step's equation for a pending command that decodes. -/
theorem stepRunsDecodedCommand : Obligations.StepRunsDecodedCommand :=
  fun _ _ _ _ hin hdec => step_command hin hdec

/-- Where there is a limit, the admitted counts are those up to it (D27). -/
theorem Config.admits_iff {cfg : Config} {m : Nat} (hm : cfg.nmax = some m) (n : Nat) :
    cfg.admits n = true ↔ n ≤ m := by
  simp [Config.admits, hm]

/-- A `send` argument of the right type leaves only the count to check (R177, R196). -/
theorem execConstruct_of_send_typed {args : ConstructArgs} (hsend : args.send ≠ .other) (s : State) :
    ∃ send, execConstruct args s = constructWith args send s := by
  unfold execConstruct
  cases h : args.send with
  | callable => exact ⟨true, rfl⟩
  | absent => exact ⟨false, rfl⟩
  | other => exact absurd h hsend

/-- A count the implementation does not admit is refused (D27, U9). -/
theorem constructWith_refused {args : ConstructArgs} {s : State}
    (h : ¬ s.cfg.admits (constructedCount args.pixelCount).toNat = true) (send : Bool) :
    constructWith args send s = .refused .aboveNmax := by
  rw [constructWith, if_neg h]

/-- Settles O22: a raw count above the limit is not negative, so it is the constructed count, which the
implementation does not admit. -/
theorem constructAboveNmaxIsRefused : Obligations.ConstructAboveNmaxIsRefused := by
  intro s args m hsend hm habove
  obtain ⟨send, hexec⟩ := execConstruct_of_send_typed hsend s
  have hcount : ¬ (constructedCount args.pixelCount).toNat ≤ m := by
    rw [constructedCount_eq]
    omega
  rw [hexec]
  exact constructWith_refused (fun hadmits => hcount ((Config.admits_iff hm _).1 hadmits)) send

/-! ## The scaled brightness -/

/-- The scaler over the integers (R9, R10). -/
theorem scale_cast (br : Int) (gb : BitVec 5) :
    (scale br gb : Int) = max 0 (min 31 br) * (gb.toNat : Int) / 31 := by
  rw [← clamp31_eq]
  simp [scale]

/-- At full global brightness the scaler keeps the clamped operand (R10). -/
theorem scale_full_global (br : Int) : scale br 31 = clamp31 br :=
  Nat.mul_div_left _ (by decide : 0 < 31)

/-- At global brightness 0 the scaler gives 0 (R10). -/
theorem scale_zero_global (br : Int) : scale br 0 = 0 := by
  simp [scale]

/-- A full brightness operand scales to the global brightness (R9, R10). -/
theorem scale_full_operand {br : Int} (hbr : 31 ≤ br) (gb : BitVec 5) : scale br gb = gb.toNat := by
  have hclamp : clamp31 br = 31 := by
    have := clamp31_eq br
    omega
  rw [scale, hclamp]
  exact Nat.mul_div_right _ (by decide : 0 < 31)

/-- A `set_pixel` inside the strip writes exactly that pixel (R102, R110). -/
theorem exec_setPixel_spec {s : State} {t : Strip} (hs : s.strip = some t) (ht : t.Inv) {index : Int}
    (hlo : 0 ≤ index) (hhi : index < t.pixelCount) (r g b : Byte) (br : Int) :
    ∃ t', exec (.setPixel index r g b br) s = .next (s.mutated t') ∧ t'.Inv ∧
      PixelsWritten t t' index.toNat (index.toNat + 1) r g b br :=
  setOne_spec hs ht (inRange_iff.2 ⟨hlo, hhi⟩) r g b br

/-- The byte at the start of a written pixel is the marker of the global brightness before the write
(R60, R110). -/
theorem PixelsWritten.marker {t t' : Strip} {lo hi : Nat} {r g b : Byte} {br : Int}
    (h : PixelsWritten t t' lo hi r g b br) {i : Nat} (hlo : lo ≤ i) (hhi : i < hi) :
    t'.readByte (4 * i) = some (expectedMarker t.globalBrightness br) := by
  obtain ⟨⟨_, hgb, _, _⟩, hpixels, _⟩ := h
  obtain ⟨hmarker, _, _, _⟩ := hpixels i hlo hhi
  rw [hmarker, hgb]

/-- Settles O33: the marker written holds the scaled brightness, so each clause about the marker is one
about the scaler. -/
theorem storedBrightnessIsScaled : Obligations.StoredBrightnessIsScaled := by
  intro s t index r g b br hs ht hlo hhi
  obtain ⟨t', hexec, _, hwritten⟩ := exec_setPixel_spec hs ht hlo hhi r g b br
  refine ⟨t', expectedMarker t.globalBrightness br, hexec,
    hwritten.marker (Nat.le_refl _) (Nat.lt_succ_self _), expectedMarker_top _ _, ?_⟩
  rw [expectedMarker_low]
  refine ⟨scale_cast _ _, scale_le _ _, fun hgb => ?_, fun hgb => ?_, fun hbr => ?_⟩
  · rw [hgb, scale_full_global, clamp31_eq]
  · rw [hgb, scale_zero_global]
  · exact BitVec.eq_of_toNat_eq ((expectedMarker_low _ _).trans (scale_full_operand hbr _))

end Sys2Proof.Machine
end

section
/-! SUPPORT. What every operation that completes does to the machine, what every construction does, and from
these two what every step keeps: the invariant, the order of the inputs, the configuration. -/

namespace Sys2Proof.Machine

/-! ## Every operation -/

/-- Every operation but `show`, on any strip, completes, answers `OK` and keeps what it must keep. -/
theorem exec_completesQuietly {i : Instr} {s : State} {t : Strip} (hi : i ≠ .showFrame)
    (hs : s.strip = some t) : CompletesQuietly s t (exec i s) := by
  cases i with
  | setPixel index r g b br => exact setOne_completes hs index r g b br
  | setPixelByPackedRgb index v br => exact setOne_completes hs index _ _ _ br
  | setRange start endEx r g b br => exact setMany_completes hs start endEx r g b br
  | setRangeByPackedRgb start endEx v br => exact setMany_completes hs start endEx _ _ _ br
  | setAll r g b br => exact setEvery_completes hs r g b br
  | setAllByPackedRgb v br => exact setEvery_completes hs _ _ _ br
  | clearStrip => exact execClearStrip_completes hs
  | rotate p => exact execRotate_completes hs p
  | showFrame => exact absurd rfl hi
  | getPixelColorStr index => exact queryPixel_completes hs colourString index
  | getPixelColorPacked index => exact queryPixel_completes hs colourPacked index
  | getPixelColorTuple index => exact queryPixel_completes hs colourTriple index
  | combineColor r g b => exact withStrip_answer_completes hs fun _ => .int (packColour r g b).toNat
  | wheel p => exact withStrip_answer_completes hs fun _ => .int (wheelOf s.cfg p).toNat
  | dumpArray => exact execDumpArray_completes hs
  | getPixelCount => exact withStrip_answer_completes hs fun t => .int t.pixelCount
  | getGlobalBrightness => exact withStrip_answer_completes hs fun t => .int t.globalBrightness.toNat
  | getChannelOrder =>
    exact withStrip_answer_completes hs fun t =>
      .triple t.channelMap.offR.toNat t.channelMap.offG.toNat t.channelMap.offB.toNat
  | getSend => exact withStrip_answer_completes hs fun t => .bool t.send
  | getMaxBrightness => exact withStrip_answer_completes hs fun _ => .int maxBrightness

/-- Every operation on any strip completes with one response and keeps what it must keep (R80, R170). -/
theorem exec_completes (i : Instr) {s : State} {t : Strip} (hs : s.strip = some t) :
    Completes s t (exec i s) := by
  by_cases hi : i = .showFrame
  · subst hi
    exact execShowFrame_completes hs
  · exact (exec_completesQuietly hi hs).completes

/-- Every operation is refused where no strip exists (R198, U5). -/
theorem exec_noStrip (i : Instr) {s : State} (hs : s.strip = none) : exec i s = .refused .noStrip := by
  cases i <;> exact State.withStrip_none hs _

/-- An operation that answers a next state found a strip. -/
theorem exec_next_strip {i : Instr} {s s' : State} (h : exec i s = .next s') : ∃ t, s.strip = some t := by
  cases hs : s.strip with
  | none => simp [exec_noStrip i hs] at h
  | some t => exact ⟨t, rfl⟩

/-- What an operation that answers a next state keeps: the parameters, the pending inputs, the strip's
configuration and its invariant (R32, R37). -/
theorem exec_next_keeps {i : Instr} {s s' : State} {t : Strip} (hs : s.strip = some t)
    (h : exec i s = .next s') :
    s'.cfg = s.cfg ∧ s'.inbox = s.inbox ∧
      ∃ t', s'.strip = some t' ∧ Strip.sameConfig t t' ∧ (t.Inv → t'.Inv) := by
  obtain ⟨u, hnext, hcfg, hinbox, -, hstrip⟩ := exec_completes i hs
  rw [h] at hnext
  cases hnext
  exact ⟨hcfg, hinbox, hstrip⟩

/-- Settles O14: the configuration is part of what every completing operation keeps. -/
theorem configurationIsReadOnly : Obligations.ConfigurationIsReadOnly := by
  intro i s s' t hs h
  obtain ⟨hcfg, hinbox, t', hs', ⟨hcount, hgb, hmap, hsend⟩, -⟩ := exec_next_keeps hs h
  exact ⟨t', hs', hcount, hgb, hmap, hsend, hcfg, hinbox⟩

/-! ## The order of the inputs -/

/-- A construction leaves the parameters and the pending inputs as they were. -/
theorem construct_next_keeps {args : ConstructArgs} {s s' : State} (h : execConstruct args s = .next s') :
    s'.cfg = s.cfg ∧ s'.inbox = s.inbox := by
  obtain ⟨-, rfl⟩ | ⟨_, -, -, -, rfl⟩ := construct_cases h <;> exact ⟨rfl, rfl⟩

/-- Settles O3: the step removes the oldest input, and neither a construction nor an operation touches the
rest. -/
theorem stepTakesOldestInput : Obligations.StepTakesOldestInput := by
  intro s s' h
  obtain ⟨hidle, rfl⟩ | ⟨args, rest, hin, hcon⟩ | ⟨c, rest, i, hin, -, hexec⟩ := step_cases h
  · rw [hidle, List.tail_nil]
  · obtain ⟨-, hinbox⟩ := construct_next_keeps hcon
    rw [hin, hinbox, List.tail_cons]
  · obtain ⟨t, hs⟩ := exec_next_strip hexec
    obtain ⟨-, hinbox, -⟩ := exec_next_keeps hs hexec
    rw [hin, hinbox, List.tail_cons]

/-! ## The invariant -/

/-- The machine's invariant, by its strip. -/
theorem State.inv_iff {s : State} :
    s.Inv ↔ Config.lawful s.cfg ∧ ∀ t, s.strip = some t → t.Inv ∧ s.cfg.admits t.pixelCount = true := by
  refine and_congr_right fun _ => ?_
  cases s.strip with
  | none => simp
  | some t => simp

/-- Every completing operation keeps the invariant: the strip's own part, and the count with `NMAX` (R37). -/
theorem exec_keeps_inv {i : Instr} {s s' : State} (hinv : s.Inv) (h : exec i s = .next s') : s'.Inv := by
  obtain ⟨hlawful, hstrip⟩ := State.inv_iff.1 hinv
  obtain ⟨t, hs⟩ := exec_next_strip h
  obtain ⟨ht, hadmits⟩ := hstrip t hs
  obtain ⟨hcfg, -, t', hs', ⟨hcount, -, -, -⟩, hkeep⟩ := exec_next_keeps hs h
  rw [State.inv_iff, hcfg]
  refine ⟨hlawful, fun u hu => ?_⟩
  obtain rfl : t' = u := Option.some.inj (hs'.symm.trans hu)
  exact ⟨hkeep ht, hcount ▸ hadmits⟩

/-- Every completing construction establishes the strip's part of the invariant, whatever strip there was
before (R196). -/
theorem construct_keeps_inv {args : ConstructArgs} {s s' : State} (hlawful : Config.lawful s.cfg)
    (h : execConstruct args s = .next s') : s'.Inv := by
  obtain ⟨-, rfl⟩ | ⟨send, -, -, hadmits, rfl⟩ := construct_cases h
  · exact State.inv_iff.2 ⟨hlawful, fun _ ht => nomatch ht⟩
  · refine State.inv_iff.2 ⟨hlawful, fun t ht => ?_⟩
    obtain rfl : constructStrip s.cfg args send = t := Option.some.inj ht
    exact ⟨constructStrip_inv s.cfg args send, hadmits⟩

/-- Settles O10: a step is idle, a construction or an operation, and each keeps the invariant, which does not
speak of the inbox. -/
theorem stepKeepsInvariant : Obligations.StepKeepsInvariant := by
  intro s s' hinv h
  obtain ⟨hlawful, -⟩ := State.inv_iff.1 hinv
  obtain ⟨-, rfl⟩ | ⟨args, rest, -, hcon⟩ | ⟨c, rest, i, -, -, hexec⟩ := step_cases h
  · exact hinv
  · exact construct_keeps_inv (s := { s with inbox := rest }) hlawful hcon
  · exact exec_keeps_inv (s := { s with inbox := rest }) hinv hexec

/-! ## Reset -/

/-- `construct(3, sink)` from the reset machine without its strip ends in the reset machine, the
construction reported (R34, R196). -/
theorem construct_reset :
    execConstruct ⟨3, .callable, none, none⟩ { State.reset with strip := none } =
      .next (State.reset.reportConstruction .constructed) := rfl

/-- Settles O11: a construction made the reset machine, up to the report, which the invariant does not
speak of. -/
theorem resetMeetsInvariant : Obligations.ResetMeetsInvariant :=
  show (State.reset.reportConstruction .constructed).Inv from
    construct_keeps_inv Config.standard_lawful construct_reset

/-- Settles O24: the construction ends in the reset machine with its one report. -/
theorem resetIsConstruction : Obligations.ResetIsConstruction :=
  ⟨_, construct_reset, rfl, rfl, rfl⟩

end Sys2Proof.Machine
end

section
/-! SUPPORT. The strip's bytes under the operations: no run reaches an offset outside the buffer, the reads
change no byte, a repeated write changes none, the sets write exactly their pixels, and a query reads the
colour at the mapped offsets. -/

namespace Sys2Proof.Machine

/-! ## No fault -/

/-- No operation faults: it completes on a strip and is refused without one (R50, R198). -/
theorem exec_no_fault (i : Instr) (s : State) (f : Fault) : exec i s ≠ .fault f := by
  intro h
  cases hs : s.strip with
  | none => simp [exec_noStrip i hs] at h
  | some t =>
    obtain ⟨s', hnext, -⟩ := exec_completes i hs
    simp [hnext] at h

/-- No step faults (R170, R175). -/
theorem step_no_fault (s : State) (f : Fault) : step s ≠ .fault f := by
  intro h
  obtain ⟨args, rest, hcon⟩ | ⟨i, rest, hexec⟩ := step_fault h
  · exact construct_no_fault args _ f hcon
  · exact exec_no_fault i _ f hexec

/-- A machine no step of which faults has no run that faults, by induction on the number of steps. -/
theorem core_run_no_fault {M : Host.Core} (hstep : ∀ s f, M.step s ≠ .fault f) (n : Nat) (s : M.State)
    (f : M.Fault) : M.run n s ≠ .fault f := by
  induction n generalizing s with
  | zero => simp [Host.Core.run]
  | succ n ih =>
    rw [Host.Core.run]
    cases h : M.step s with
    | next s' => exact ih s'
    | fault r => exact absurd h (hstep s r)
    | refused r => simp

/-- Settles O12: every run is a run of steps, and no step faults. -/
theorem noRunFaults : Obligations.NoRunFaults :=
  fun s n f => core_run_no_fault (M := core) step_no_fault n s f

/-! ## Reads -/

/-- If the command answers a next state, the strip in it is the one before. -/
def KeepsStrip (s : State) (res : Result) : Prop := ∀ s', res = .next s' → s'.strip = s.strip

theorem KeepsStrip.next {s s' : State} (h : s'.strip = s.strip) : KeepsStrip s (.next s') := by
  rintro _ ⟨⟩
  exact h

/-- An operation that only answers from the strip. -/
theorem withStrip_answer_keepsStrip {s : State} {t : Strip} (hs : s.strip = some t) (f : Strip → Payload) :
    KeepsStrip s (s.withStrip fun t => s.answer (f t)) := by
  rw [State.withStrip_some hs]
  exact .next rfl

theorem queryPixel_keepsStrip {s : State} {t : Strip} (hs : s.strip = some t)
    (f : Byte → Byte → Byte → Payload) (index : Int) : KeepsStrip s (queryPixel f index s) := by
  by_cases hq : queryOk t.pixelCount index = true
  · obtain ⟨r, g, b, -, -, -, e⟩ := queryPixel_inside hs hq f
    rw [e]
    exact .next rfl
  · rw [queryPixel_outside hs hq f]
    split <;> exact .next rfl

theorem execDumpArray_keepsStrip {s : State} {t : Strip} (hs : s.strip = some t) :
    KeepsStrip s (execDumpArray s) := by
  obtain ⟨bytes, -, -, e⟩ := execDumpArray_spec hs
  rw [e]
  exact .next rfl

/-- The response of `show`, whichever way the sink answers, leaves the strip (R134). -/
@[simp] theorem showResponse_strip (ok : Bool) (s : State) : (showResponse ok s).strip = s.strip := by
  cases ok <;> rfl

theorem execShowFrame_keepsStrip {s : State} {t : Strip} (hs : s.strip = some t) :
    KeepsStrip s (execShowFrame s) := by
  cases hp : t.send with
  | true =>
    obtain ⟨bytes, -, -, e⟩ := execShowFrame_present hs hp
    rw [e]
    exact .next (by simp)
  | false =>
    rw [execShowFrame_absent hs hp]
    exact .next rfl

/-- Settles O16: an operation that completes found a strip, and each shape of read keeps it. -/
theorem readsKeepTheStrip : Obligations.ReadsKeepTheStrip := by
  intro i s s' hi h
  obtain ⟨t, hs⟩ := exec_next_strip h
  suffices KeepsStrip s (exec i s) from this s' h
  cases i with
  | setPixel | setPixelByPackedRgb | setRange | setRangeByPackedRgb | setAll | setAllByPackedRgb
  | clearStrip | rotate => cases hi
  | showFrame => exact execShowFrame_keepsStrip hs
  | getPixelColorStr index => exact queryPixel_keepsStrip hs colourString index
  | getPixelColorPacked index => exact queryPixel_keepsStrip hs colourPacked index
  | getPixelColorTuple index => exact queryPixel_keepsStrip hs colourTriple index
  | dumpArray => exact execDumpArray_keepsStrip hs
  | combineColor | wheel | getPixelCount | getGlobalBrightness | getChannelOrder | getSend
  | getMaxBrightness => exact withStrip_answer_keepsStrip hs _

/-! ## The sets, pixel by pixel -/

/-- Settles O25: the index is in range or it is not, and the shared body of the single-pixel sets says what
happens in either case. -/
theorem setPixelWritesOnePixel : Obligations.SetPixelWritesOnePixel := by
  intro s t index r g b br hs ht
  refine ⟨fun hlo hhi => ?_, fun hout => ?_⟩
  · obtain ⟨t', hexec, -, hwritten⟩ := exec_setPixel_spec hs ht hlo hhi r g b br
    exact ⟨t', hexec, hwritten⟩
  · exact setOne_noOp hs (by rw [inRange_iff]; omega) r g b br

/-- Settles O27: likewise for the range test, by the shared body of the range sets. -/
theorem setRangeWritesRange : Obligations.SetRangeWritesRange := by
  intro s t start endEx r g b br hs ht
  refine ⟨fun hstart hend hle => ?_, fun hout => ?_⟩
  · obtain ⟨t', hexec, -, hwritten⟩ := setMany_spec hs ht (rangeOk_iff.2 ⟨hstart, hend, hle⟩) r g b br
    exact ⟨t', hexec, hwritten⟩
  · exact setMany_noOp hs (by rw [rangeOk_iff]; omega) r g b br

/-- Settles O30 by the shared body of the whole-strip sets, which tests no index. -/
theorem setAllWritesEveryPixel : Obligations.SetAllWritesEveryPixel := by
  intro s t r g b br hs ht
  obtain ⟨t', hexec, -, hwritten⟩ := setEvery_spec hs ht r g b br
  exact ⟨t', hexec, hwritten⟩

/-! ## Writes issued twice -/

/-- Both issues of the command complete, and the second leaves the strip of the first (R49). -/
def TwiceIsOnce (f : State → Result) (s : State) : Prop :=
  ∃ s1 s2, f s = .next s1 ∧ f s1 = .next s2 ∧ s2.strip = s1.strip

/-- A command that leaves this strip alone. -/
theorem twiceIsOnce_of_noOp {f : State → Result} {s : State} {t : Strip} (hs : s.strip = some t)
    (hf : ∀ u : State, u.strip = some t → f u = .next (u.answered .none)) : TwiceIsOnce f s :=
  ⟨_, _, hf s hs, hf (s.answered .none) hs, rfl⟩

/-- Writing pixels keeps their number (R32). -/
theorem PixelsWritten.pixelCount {t t' : Strip} {lo hi : Nat} {r g b : Byte} {br : Int}
    (h : PixelsWritten t t' lo hi r g b br) : t'.pixelCount = t.pixelCount := by
  obtain ⟨⟨hcount, -⟩, -⟩ := h
  exact hcount

/-- A command that writes the same pixels, with the same colour and brightness, on every strip of this
count. -/
theorem twiceIsOnce_of_pixelsWritten {f : State → Result} {s : State} {t : Strip} {lo hi : Nat}
    {r g b : Byte} {br : Int} (hs : s.strip = some t) (ht : t.Inv)
    (hf : ∀ (u : State) (v : Strip), u.strip = some v → v.Inv → v.pixelCount = t.pixelCount →
      ∃ v', f u = .next (u.mutated v') ∧ v'.Inv ∧ PixelsWritten v v' lo hi r g b br) :
    TwiceIsOnce f s := by
  obtain ⟨t1, e1, i1, w1⟩ := hf s t hs ht rfl
  obtain ⟨t2, e2, i2, w2⟩ := hf (s.mutated t1) t1 rfl i1 w1.pixelCount
  exact ⟨_, _, e1, e2, congrArg some (w1.again i1.canonical i2.canonical ht.bijective w2)⟩

theorem setOne_twiceIsOnce {s : State} {t : Strip} (hs : s.strip = some t) (ht : t.Inv) (index : Int)
    (r g b : Byte) (br : Int) : TwiceIsOnce (setOne index r g b br) s := by
  by_cases hi : inRange t.pixelCount index = true
  · exact twiceIsOnce_of_pixelsWritten hs ht fun u v hu hv hn => setOne_spec hu hv (hn ▸ hi) r g b br
  · exact twiceIsOnce_of_noOp hs fun u hu => setOne_noOp hu hi r g b br

theorem setMany_twiceIsOnce {s : State} {t : Strip} (hs : s.strip = some t) (ht : t.Inv)
    (start endEx : Int) (r g b : Byte) (br : Int) : TwiceIsOnce (setMany start endEx r g b br) s := by
  by_cases hr : rangeOk t.pixelCount start endEx = true
  · exact twiceIsOnce_of_pixelsWritten hs ht fun u v hu hv hn => setMany_spec hu hv (hn ▸ hr) r g b br
  · exact twiceIsOnce_of_noOp hs fun u hu => setMany_noOp hu hr r g b br

theorem setEvery_twiceIsOnce {s : State} {t : Strip} (hs : s.strip = some t) (ht : t.Inv)
    (r g b : Byte) (br : Int) : TwiceIsOnce (setEvery r g b br) s :=
  twiceIsOnce_of_pixelsWritten hs ht fun _ _ hu hv hn => hn ▸ setEvery_spec hu hv r g b br

/-- Clearing a cleared strip changes no byte: the colour bytes are zero already. -/
theorem execClearStrip_twiceIsOnce {s : State} {t : Strip} (hs : s.strip = some t) (ht : t.Inv) :
    TwiceIsOnce execClearStrip s := by
  obtain ⟨t1, e1, c1, k1, r1⟩ := clearStrip_spec hs ht.canonical
  obtain ⟨t2, e2, c2, k2, r2⟩ := clearStrip_spec (s := s.mutated t1) rfl k1
  refine ⟨_, _, e1, e2, congrArg some (Strip.ext_of_readByte k1 k2 c2 fun a => ?_)⟩
  by_cases ha : a < t.size ∧ a % 4 ≠ 0
  · rw [r2, r1, c1.size, if_pos ha, if_pos ha]
  · rw [r2, c1.size, if_neg ha]

/-- Settles O17: each of the seven writes is one of four shared bodies, and what they write depends on the
operands and the configuration alone. -/
theorem writesAreIdempotent : Obligations.WritesAreIdempotent := by
  intro i s t hi hs ht
  change TwiceIsOnce (exec i) s
  cases i with
  | setPixel index r g b br => exact setOne_twiceIsOnce hs ht index r g b br
  | setPixelByPackedRgb index v br => exact setOne_twiceIsOnce hs ht index _ _ _ br
  | setRange start endEx r g b br => exact setMany_twiceIsOnce hs ht start endEx r g b br
  | setRangeByPackedRgb start endEx v br => exact setMany_twiceIsOnce hs ht start endEx _ _ _ br
  | setAll r g b br => exact setEvery_twiceIsOnce hs ht r g b br
  | setAllByPackedRgb v br => exact setEvery_twiceIsOnce hs ht _ _ _ br
  | clearStrip => exact execClearStrip_twiceIsOnce hs ht
  | rotate | showFrame | getPixelColorStr | getPixelColorPacked | getPixelColorTuple | combineColor
  | wheel | dumpArray | getPixelCount | getGlobalBrightness | getChannelOrder | getSend
  | getMaxBrightness => cases hi

/-! ## The pixel query -/

/-- The index only the inclusive bound accepts (R140, U1). -/
theorem queryPastEnd_iff {cfg : Config} {n : Nat} {x : Int} :
    queryPastEnd cfg n x = true ↔ cfg.queryBoundInclusive = true ∧ x = n := by
  simp [queryPastEnd]

/-- A query in any format outside the strip, an index of `N` under the inclusive bound apart, answers the
absent sentinel (R68, R140). -/
theorem queryPixel_absent {s : State} {t : Strip} (hs : s.strip = some t) {index : Int}
    (hout : index < 0 ∨ (t.pixelCount : Int) < index ∨
      (index = t.pixelCount ∧ s.cfg.queryBoundInclusive = false))
    (f : Byte → Byte → Byte → Payload) : queryPixel f index s = .next (s.answered .absent) := by
  have hq : ¬ queryOk t.pixelCount index = true := by
    rw [queryOk_iff]
    omega
  have hp : ¬ queryPastEnd s.cfg t.pixelCount index = true := by
    rw [queryPastEnd_iff]
    rintro ⟨hincl, hindex⟩
    obtain h | h | ⟨-, hstrict⟩ := hout
    · omega
    · omega
    · simp [hincl] at hstrict
  rw [queryPixel_outside hs hq f, if_neg hp]

/-- Settles O45: inside the strip the query reads the three bytes at the mapped offsets, outside it there is
no colour to read. -/
theorem queryTupleReadsColour : Obligations.QueryTupleReadsColour := by
  intro s t index hs
  refine ⟨fun hlo hhi => ?_, fun hout => queryPixel_absent hs hout colourTriple⟩
  exact queryPixel_inside hs (queryOk_iff.2 ⟨hlo, hhi⟩) colourTriple

end Sys2Proof.Machine
end

section
/-! SUPPORT. The command port: the decoder undoes the encoder, what it gives fits the ports, and a command
is refused as reserved exactly when its `op` is; the textual short forms. -/

namespace Sys2Proof

/-- The decoder gives back a well-formed instruction: its `op` selects the same arm, and each integer
operand comes back from its port (R79, R81). -/
theorem decode_encode {i : Instr} (hwf : i.wf = true) : decode (encode i) = .ok i := by
  cases i with
  | setPixel index r g b br =>
    obtain ⟨hindex, hbr⟩ := Bool.and_eq_true_iff.1 hwf
    simp [encode, Command.withOp, decode, port_toInt hindex, port_toInt hbr]
  | setPixelByPackedRgb index v br =>
    obtain ⟨hrest, hbr⟩ := Bool.and_eq_true_iff.1 hwf
    obtain ⟨hindex, hv⟩ := Bool.and_eq_true_iff.1 hrest
    simp [encode, Command.withOp, decode, port_toInt hindex, port_toInt hv, port_toInt hbr]
  | setRange start endEx r g b br =>
    obtain ⟨hrest, hbr⟩ := Bool.and_eq_true_iff.1 hwf
    obtain ⟨hstart, hend⟩ := Bool.and_eq_true_iff.1 hrest
    simp [encode, Command.withOp, decode, port_toInt hstart, port_toInt hend, port_toInt hbr]
  | setRangeByPackedRgb start endEx v br =>
    obtain ⟨hrest, hbr⟩ := Bool.and_eq_true_iff.1 hwf
    obtain ⟨hrange, hv⟩ := Bool.and_eq_true_iff.1 hrest
    obtain ⟨hstart, hend⟩ := Bool.and_eq_true_iff.1 hrange
    simp [encode, Command.withOp, decode, port_toInt hstart, port_toInt hend, port_toInt hv, port_toInt hbr]
  | setAll r g b br => simp [encode, Command.withOp, decode, port_toInt (x := br) hwf]
  | setAllByPackedRgb v br =>
    obtain ⟨hv, hbr⟩ := Bool.and_eq_true_iff.1 hwf
    simp [encode, Command.withOp, decode, port_toInt hv, port_toInt hbr]
  | rotate p => simp [encode, Command.withOp, decode, port_toInt (x := p) hwf]
  | getPixelColorStr index | getPixelColorPacked index | getPixelColorTuple index =>
    simp [encode, Command.withOp, decode, port_toInt (x := index) hwf]
  | clearStrip | showFrame | combineColor | wheel | dumpArray | getPixelCount | getGlobalBrightness
  | getChannelOrder | getSend | getMaxBrightness => rfl

/-- Settles O7: the word gives the record back, and the record the instruction. -/
theorem decodeEncodeRoundTrip : Obligations.DecodeEncodeRoundTrip := by
  intro i hwf
  rw [Command.ofWord_toWord, decode_encode hwf]

/-- Settles O8: every integer operand the decoder gives is the value of a port, in each of the twenty
assigned arms; the arm of the reserved `op` values gives no instruction. -/
theorem decodedIsWellFormed : Obligations.DecodedIsWellFormed := by
  intro c i h
  unfold decode at h
  split at h <;> cases h
  all_goals simp [Instr.wf, fitsWord_toInt]

/-- Settles O5: each arm of the decoder is selected by its number. -/
theorem opSelectsOperation : Obligations.OpSelectsOperation := by
  rintro ⟨op, a, e, cr, cg, cb, rgb, br, pos⟩
  refine ⟨?_, ?_, ?_, ?_, ?_, ?_, ?_, ?_, ?_, ?_, ?_, ?_, ?_, ?_, ?_, ?_, ?_, ?_, ?_, ?_⟩ <;>
    (rintro ⟨⟩; rfl)

/-- The reserved `op` values are those the decoder rejects (R83). -/
theorem decode_reserved_iff (c : Command) :
    decode c = .error (.reservedOp c.op) ↔ c.op = 0 ∨ 0x15 ≤ c.op.toNat := by
  have hzero : c.op = 0 ↔ c.op.toNat = 0 := BitVec.toNat_inj.symm
  rw [hzero]
  obtain ⟨i, hdec, hlo, hhi⟩ | ⟨hdec, hop⟩ := decode_cases c
  · simp only [hdec, reduceCtorEq, false_iff]
    omega
  · simp only [hdec, hop]

end Sys2Proof

namespace Sys2Proof.Machine

/-- A pending command that the decoder rejects is refused, by its `op` (R83). -/
theorem step_reserved {s : State} {c : Command} {rest : List HostEvent} {op : BitVec 5}
    (hin : s.inbox = .command c :: rest) (hdec : decode c = .error (.reservedOp op)) :
    step s = .refused (.reservedOp op) := by
  simp only [step, hin, hdec]

/-- An operation is refused for want of a strip only (R198, U5). -/
theorem exec_refused {i : Instr} {s : State} {r : Refusal} (h : exec i s = .refused r) : r = .noStrip := by
  cases hs : s.strip with
  | none =>
    rw [exec_noStrip i hs] at h
    cases h
    rfl
  | some t =>
    obtain ⟨s', hnext, -⟩ := exec_completes i hs
    simp [hnext] at h

/-- Settles O4: a command the decoder rejects is refused by its `op`; one it accepts is executed, and no
operation is refused as reserved. -/
theorem reservedOpIsRefused : Obligations.ReservedOpIsRefused := by
  intro s c rest hin
  rw [← decode_reserved_iff]
  refine ⟨step_reserved hin, fun hstep => ?_⟩
  obtain ⟨i, hdec, -⟩ | ⟨hdec, -⟩ := decode_cases c
  · rw [step_command hin hdec] at hstep
    cases exec_refused hstep
  · exact hdec

/-- Settles O13: a completing operation adds one response. -/
theorem everyCommandAnswersOnce : Obligations.EveryCommandAnswersOnce := by
  intro i s t hs
  obtain ⟨s', hnext, -, -, ⟨r, hreplies⟩, -⟩ := exec_completes i hs
  exact ⟨s', r, hnext, hreplies⟩

/-- Settles O6, word by word: a word written out in numbers is evaluated. -/
theorem writtenOutWordsDecode : Obligations.WrittenOutWordsDecode :=
  ⟨by decide, by decide, by decide, by decide, by decide, by decide, by decide, by decide⟩

/-- Settles O9, text by text: the assembler is run on each of the texts. -/
theorem assemblerDefaults : Obligations.AssemblerDefaults :=
  ⟨by decide, by decide, by decide, by decide, by decide, by decide, by decide, by decide, by decide⟩

end Sys2Proof.Machine
end

section
/-! SUPPORT. The order string: the alphabet and the ranks. -/

namespace Sys2Proof.Machine

/-- The two letters that name a channel (R72). -/
def lettersOf : Channel → List Char
  | .red => ['R', 'r']
  | .green => ['G', 'g']
  | .blue => ['B', 'b']

/-- A character names the channel whose letter it is (R72). -/
theorem channelOf_eq_some_iff {ch : Char} {c : Channel} : channelOf ch = some c ↔ ch ∈ lettersOf c := by
  constructor
  · unfold channelOf
    split_ifs with hR hG hB
    · rintro ⟨⟩
      exact List.mem_pair.2 hR
    · rintro ⟨⟩
      exact List.mem_pair.2 hG
    · rintro ⟨⟩
      exact List.mem_pair.2 hB
    · rintro ⟨⟩
  · intro hletter
    cases c <;> obtain rfl | rfl := List.mem_pair.1 hletter <;> rfl

/-- A character that is no channel's letter names no channel (R72). -/
theorem channelOf_eq_none_iff {ch : Char} :
    channelOf ch = none ↔ ch ∉ lettersOf .red ++ lettersOf .green ++ lettersOf .blue := by
  rw [Option.eq_none_iff_forall_ne_some]
  simp only [ne_eq, channelOf_eq_some_iff, List.mem_append, not_or]
  exact ⟨fun h => ⟨⟨h _, h _⟩, h _⟩, fun ⟨⟨hr, hg⟩, hb⟩ c => by cases c <;> assumption⟩

/-- The map of a valid order string ranks its letters (R74). -/
theorem orderMap_ranks {extraOk : Bool} {cs : List Char} {c1 c2 c3 : Channel}
    (hletters : orderLetters cs = [c1, c2, c3]) (h12 : c1 ≠ c2) (h13 : c1 ≠ c3) (h23 : c2 ≠ c3)
    (haccepted : extraOk = true ∨ ∀ ch ∈ cs, channelOf ch ≠ none) :
    (orderMap extraOk (some cs)).off c1 = 1 ∧ (orderMap extraOk (some cs)).off c2 = 2 ∧
      (orderMap extraOk (some cs)).off c3 = 3 := by
  have hvalid : orderValid extraOk cs = true :=
    orderValid_iff.2 ⟨hletters ▸ counts_of_letters h12 h13 h23, haccepted⟩
  obtain ⟨h1, h2, h3, -⟩ := rankScan_three h12 h13 h23 ChannelMap.standard
  rw [orderMap, if_pos hvalid, orderScan_eq, hletters]
  exact ⟨h1, h2, h3⟩

/-- The map of an order string that is not valid is the default (R75). -/
theorem orderMap_default {extraOk : Bool} {cs : List Char} (h : ¬ orderValid extraOk cs = true) :
    orderMap extraOk (some cs) = ChannelMap.standard := by
  rw [orderMap, if_neg h]

/-- Settles O23: the alphabet letter by letter; then a string is valid, and its letters are ranked, or it
breaks one of the two conditions of validity. -/
theorem orderStringGivesRanks : Obligations.OrderStringGivesRanks := by
  refine ⟨fun ch => ⟨?_, ?_, ?_, ?_⟩, fun extraOk cs => ⟨?_, ?_, ?_, rfl⟩⟩
  · exact channelOf_eq_some_iff.trans List.mem_pair
  · exact channelOf_eq_some_iff.trans List.mem_pair
  · exact channelOf_eq_some_iff.trans List.mem_pair
  · exact channelOf_eq_none_iff
  · exact fun c1 c2 c3 hletters h12 h13 h23 haccepted => orderMap_ranks hletters h12 h13 h23 haccepted
  · rintro ⟨c, hcount⟩
    refine orderMap_default fun hvalid => hcount ?_
    exact (orderValid_iff.1 hvalid).1 c
  · rintro hextra ⟨ch, hmem, hnone⟩
    refine orderMap_default fun hvalid => ?_
    obtain ⟨-, hok | hall⟩ := orderValid_iff.1 hvalid
    · simp [hextra] at hok
    · exact hall ch hmem hnone

end Sys2Proof.Machine
end

section
/-! SUPPORT. The packed sets are the plain ones with the decoded channels, a query's formats written out, the
frame `show` sends, byte by byte. -/

namespace Sys2Proof.Machine

/-! ## The packed sets -/

/-- The packed single-pixel set is `set_pixel` with the channels of the low 24 bits (R76, R103). -/
theorem exec_setPixelByPackedRgb (index v br : Int) :
    exec (.setPixelByPackedRgb index v br) =
      exec (.setPixel index (BitVec.ofInt 8 (v / 65536)) (BitVec.ofInt 8 (v / 256)) (BitVec.ofInt 8 v) br) := by
  obtain ⟨hr, hg, hb⟩ := packedOperand_channels v
  rw [← hr, ← hg, ← hb]
  rfl

/-- The packed range set is `set_range` with the channels of the low 24 bits (R76, R105). -/
theorem exec_setRangeByPackedRgb (start endEx v br : Int) :
    exec (.setRangeByPackedRgb start endEx v br) =
      exec (.setRange start endEx (BitVec.ofInt 8 (v / 65536)) (BitVec.ofInt 8 (v / 256))
        (BitVec.ofInt 8 v) br) := by
  obtain ⟨hr, hg, hb⟩ := packedOperand_channels v
  rw [← hr, ← hg, ← hb]
  rfl

/-- The packed whole-strip set is `set_all` with the channels of the low 24 bits (R76, R107). -/
theorem exec_setAllByPackedRgb (v br : Int) :
    exec (.setAllByPackedRgb v br) =
      exec (.setAll (BitVec.ofInt 8 (v / 65536)) (BitVec.ofInt 8 (v / 256)) (BitVec.ofInt 8 v) br) := by
  obtain ⟨hr, hg, hb⟩ := packedOperand_channels v
  rw [← hr, ← hg, ← hb]
  rfl

/-- Settles O26 by what `set_pixel` writes. -/
theorem setPixelPackedWritesOnePixel : Obligations.SetPixelPackedWritesOnePixel := by
  intro s t index v br hs ht
  rw [exec_setPixelByPackedRgb]
  exact setPixelWritesOnePixel s t index _ _ _ br hs ht

/-- Settles O28 by what `set_range` writes. -/
theorem setRangePackedWritesRange : Obligations.SetRangePackedWritesRange := by
  intro s t start endEx v br hs ht
  rw [exec_setRangeByPackedRgb]
  exact setRangeWritesRange s t start endEx _ _ _ br hs ht

/-- Settles O31 by what `set_all` writes. -/
theorem setAllPackedWritesEveryPixel : Obligations.SetAllPackedWritesEveryPixel := by
  intro s t v br hs ht
  rw [exec_setAllByPackedRgb]
  exact setAllWritesEveryPixel s t _ _ _ br hs ht

/-! ## The queries and the property reads -/

/-- The packed colour as a number (R65). -/
theorem colourPacked_eq (r g b : Byte) :
    colourPacked r g b = .int (r.toNat * 65536 + g.toNat * 256 + b.toNat) := by
  rw [colourPacked, packColour_toNat]

/-- Settles O46: the query in the packed format, the colour written out as a number. -/
theorem queryPackedReadsColour : Obligations.QueryPackedReadsColour := by
  intro s t index hs
  refine ⟨fun hlo hhi => ?_, fun hout => queryPixel_absent hs hout colourPacked⟩
  obtain ⟨r, g, b, hr, hg, hb, hexec⟩ := queryPixel_inside hs (queryOk_iff.2 ⟨hlo, hhi⟩) colourPacked
  exact ⟨r, g, b, hr, hg, hb, colourPacked_eq r g b ▸ hexec⟩

/-- Settles O47: the query in the string format, the colour written out digit by digit. -/
theorem queryStringReadsColour : Obligations.QueryStringReadsColour := by
  intro s t index hs
  refine ⟨fun hlo hhi => ?_, fun hout => queryPixel_absent hs hout colourString⟩
  obtain ⟨r, g, b, hr, hg, hb, hexec⟩ := queryPixel_inside hs (queryOk_iff.2 ⟨hlo, hhi⟩) colourString
  exact ⟨r, g, b, hr, hg, hb, colourString_eq r g b ▸ hexec⟩

/-- Settles O56: either read answers from the strip that is there. -/
theorem orderAndSendReadsAnswer : Obligations.OrderAndSendReadsAnswer :=
  fun _ _ hs => ⟨State.withStrip_some hs _, State.withStrip_some hs _⟩

/-! ## The frame -/

/-- How `show` answers, as one equation (R130, R133). -/
theorem showResponse_eq (ok : Bool) (s : State) :
    showResponse ok s =
      { s with replies := s.replies ++ [.response ⟨if ok then .ok else .sendFailure, .none⟩] } := by
  cases ok <;> rfl

/-- What taking the sink's answer does to the state, as one equation (R130). -/
theorem State.takeSinkAnswer_eq (s : State) :
    s.takeSinkAnswer =
      { s with
        sinkAnswers := s.sinkAnswers.tail
        freeCount := s.freeCount + (if s.sinkAnswers = [] then 1 else 0) } := by
  obtain ⟨cfg, strip, inbox, sinkAnswers, freeCount, replies, frames, dumps⟩ := s
  cases sinkAnswers <;> rfl

/-- The three parts of a frame, by their lengths (R63). -/
theorem frameOf_length (n : Nat) (bytes : List Byte) :
    (frameOf n bytes).length = 4 + bytes.length + ceil16 n := by
  simp only [frameOf, List.length_append, List.length_replicate]

/-- The start of a frame is four zero bytes (R62). -/
theorem frameOf_start {n j : Nat} (bytes : List Byte) (hj : j < 4) : (frameOf n bytes)[j]? = some 0 := by
  rw [frameOf, List.append_assoc, List.getElem?_append_left (by rwa [List.length_replicate]),
    List.getElem?_replicate_of_lt hj]

/-- After its start a frame holds the buffer's bytes, in order (R62). -/
theorem frameOf_bytes {n j : Nat} {bytes : List Byte} (hj : j < bytes.length) :
    (frameOf n bytes)[4 + j]? = bytes[j]? := by
  rw [frameOf, List.append_assoc, List.getElem?_append_right (by simp), List.length_replicate,
    Nat.add_sub_cancel_left, List.getElem?_append_left hj]

/-- The end of a frame is zero bytes (R63). -/
theorem frameOf_end {n j : Nat} {bytes : List Byte} (hlo : 4 + bytes.length ≤ j)
    (hhi : j < (frameOf n bytes).length) : (frameOf n bytes)[j]? = some 0 := by
  rw [frameOf_length] at hhi
  have hhead : (List.replicate 4 (0 : Byte) ++ bytes).length = 4 + bytes.length := by
    rw [List.length_append, List.length_replicate]
  rw [frameOf, List.getElem?_append_right (hhead ▸ hlo), List.getElem?_replicate_of_lt (by omega)]

/-- Settles O41: the frame is the one of the bytes `show` read, `ok` the sink's answer. -/
theorem showSendsOneWholeFrame : Obligations.ShowSendsOneWholeFrame := by
  intro s t hs hsend
  obtain ⟨bytes, hlength, hbytes, hexec⟩ := execShowFrame_present hs hsend
  rw [Strip.size] at hlength hbytes
  refine ⟨frameOf t.pixelCount bytes, s.sinkAnswer, ?_, fun answer rest h => State.sinkAnswer_cons h, ?_,
    fun j hj => frameOf_start bytes hj, fun j hj => ?_, fun j hlo hhi => ?_⟩
  · rw [showResponse_eq, State.takeSinkAnswer_eq] at hexec
    exact hexec
  · rw [frameOf_length, hlength, ceil16]
  · rw [frameOf_bytes (hlength ▸ hj), hbytes j hj]
  · exact frameOf_end (hlength ▸ hlo) hhi

end Sys2Proof.Machine
end

section
/-! SUPPORT. What a set leaves for the reads: the last pixel under the range sets, the markers under
`clear_strip`, the colour a query reads back. -/

namespace Sys2Proof.Machine

/-- A range set keeps every byte from the last pixel on: the range it writes ends before that pixel, and a
range that does not apply writes nothing (R101, R108). -/
theorem setMany_keeps_lastPixel {s s' : State} {t t' : Strip} (hs : s.strip = some t) (ht : t.Inv)
    {start endEx : Int} {r g b : Byte} {br : Int} (h : setMany start endEx r g b br s = .next s')
    (hs' : s'.strip = some t') {a : Nat} (ha : 4 * (t.pixelCount - 1) ≤ a) :
    t'.readByte a = t.readByte a := by
  by_cases hr : rangeOk t.pixelCount start endEx = true
  · obtain ⟨u, hexec, -, -, -, hframe⟩ := setMany_spec hs ht hr r g b br
    cases hexec.symm.trans h
    obtain rfl : u = t' := Option.some.inj hs'
    obtain ⟨_, hend, _⟩ := rangeOk_iff.1 hr
    exact hframe a (Or.inr (by omega))
  · cases (setMany_noOp hs hr r g b br).symm.trans h
    obtain rfl : t = t' := Option.some.inj (hs.symm.trans hs')
    rfl

/-- Settles O29: both range operations are the shared body of the range sets. -/
theorem rangeNeverWritesLastPixel : Obligations.RangeNeverWritesLastPixel := by
  rintro s s' t t' i hs ht - (⟨st, e, r, g, b, br, rfl⟩ | ⟨st, e, v, br, rfl⟩) h hs' k -
  · exact setMany_keeps_lastPixel hs ht h hs' (Nat.le_add_right _ k)
  · exact setMany_keeps_lastPixel hs ht h hs' (Nat.le_add_right _ k)

/-- Settles O32: the strip after `clear_strip` reads zero at the offsets inside it that are no multiple of
four, and as before at the others. -/
theorem clearStripKeepsMarkers : Obligations.ClearStripKeepsMarkers := by
  refine ⟨fun c => ?_, fun s t hs ht => ?_⟩
  · obtain ⟨-, -, -, -, -, -, hclear, -⟩ := opSelectsOperation c
    exact hclear
  · obtain ⟨t', hexec, hcfg, -, hbytes⟩ := clearStrip_spec hs ht.canonical
    have hzero : ∀ a, a < 4 * t.pixelCount → a % 4 ≠ 0 → t'.readByte a = some 0 := fun a hlt hmod => by
      rw [hbytes, if_pos ⟨hlt, hmod⟩]
    have hkept : ∀ a, 4 * t.pixelCount ≤ a ∨ a % 4 = 0 → t'.readByte a = t.readByte a := fun a ha => by
      rw [hbytes, Strip.size, if_neg (by omega)]
    refine ⟨t', hexec, hcfg, fun i hi => ⟨?_, ?_, ?_, ?_⟩, fun a ha => hkept a (.inl ha)⟩
    · exact hkept _ (.inr (Nat.mul_mod_right 4 i))
    all_goals exact hzero _ (by omega) (by omega)

/-- A query inside the strip answers the colour its pixel holds, in any format (R42, R140). -/
theorem queryPixel_of_pixelIs {s : State} {t : Strip} (hs : s.strip = some t) {index : Int}
    (hq : queryOk t.pixelCount index = true) {r g b : Byte} {br : Int}
    (hpixel : t.pixelIs index.toNat r g b br) (f : Byte → Byte → Byte → Payload) :
    queryPixel f index s = .next (s.answered (f r g b)) := by
  obtain ⟨r', g', b', hr', hg', hb', hexec⟩ := queryPixel_inside hs hq f
  obtain ⟨-, hr, hg, hb⟩ := hpixel
  obtain rfl : r' = r := Option.some.inj (hr'.symm.trans hr)
  obtain rfl : g' = g := Option.some.inj (hg'.symm.trans hg)
  obtain rfl : b' = b := Option.some.inj (hb'.symm.trans hb)
  exact hexec

/-- Settles O34: the set leaves a pixel of this colour, which the query then answers. -/
theorem setThenGetReturnsColour : Obligations.SetThenGetReturnsColour := by
  intro s t index r g b br hs ht hlo hhi
  obtain ⟨t', hexec, -, hwritten⟩ := exec_setPixel_spec hs ht hlo hhi r g b br
  have hq : queryOk t'.pixelCount index = true := queryOk_iff.2 ⟨hlo, hwritten.pixelCount ▸ hhi⟩
  obtain ⟨-, hpixels, -⟩ := hwritten
  have hpixel := hpixels index.toNat (Nat.le_refl _) (Nat.lt_succ_self _)
  exact ⟨_, hexec, queryPixel_of_pixelIs (s := s.mutated t') rfl hq hpixel colourTriple⟩

end Sys2Proof.Machine
end

section
/-! SUPPORT. Rotation as a relation between two strips, which composes by adding the amounts and has one
result; and the bytes a rotation leaves as the library's list rotation, which the block moves of R125 are
too. -/

namespace Sys2Proof.Machine

/-! ## The strip before and after -/

/-- There is no byte past the end of the buffer (R41). -/
theorem Strip.readByte_outside {t : Strip} {a : Nat} (ha : t.size ≤ a) : t.readByte a = none :=
  if_neg (Nat.not_lt.2 ha)

/-- Reading the whole buffer gives a list that agrees with `readByte` at every offset (R23). -/
theorem Strip.memRead_whole (t : Strip) :
    ∃ bytes, t.memRead 0 t.size = some bytes ∧ bytes.length = 4 * t.pixelCount ∧
      ∀ j, bytes[j]? = t.readByte j := by
  obtain ⟨bytes, hread, hlength, hbytes⟩ := Strip.memRead_spec (t := t) (a := 0) (n := t.size) (by omega)
  refine ⟨bytes, hread, hlength, fun j => ?_⟩
  by_cases hj : j < t.size
  · rw [hbytes j hj, Nat.zero_add]
  · rw [List.getElem?_eq_none (by omega), Strip.readByte_outside (by omega)]

theorem Strip.sameConfig.symm {t u : Strip} (h : Strip.sameConfig t u) : Strip.sameConfig u t := by
  obtain ⟨hcount, hgb, hmap, hsend⟩ := h
  exact ⟨hcount.symm, hgb.symm, hmap.symm, hsend.symm⟩

/-- Putting back the strip that is there is only an answer. -/
theorem State.mutated_self {s : State} {t : Strip} (hs : s.strip = some t) :
    s.mutated t = s.answered .none := by
  rw [State.mutated, State.answered, ← hs]

/-! ## No-ops -/

/-- A rotation whose reduced amount is 0 only answers, on any strip (R121, R122). -/
theorem exec_rotate_of_floorMod_zero {s : State} {t : Strip} (hs : s.strip = some t) {p : Int}
    (hp : floorMod p t.pixelCount = 0) : exec (.rotate p) s = .next (s.answered .none) := by
  change execRotate p s = _
  by_cases hn : t.pixelCount ≤ 1
  · exact execRotate_small hs hn p
  · rw [execRotate, State.withStrip_some hs, if_neg hn, hp, if_pos rfl, State.noOp_eq]

/-- Settles O35: `rotate` tests the number of pixels before it reduces the amount. -/
theorem rotateSmallStripIsNoOp : Obligations.RotateSmallStripIsNoOp :=
  fun _ _ p hs hn => execRotate_small hs hn p

/-- Settles O39: a multiple of `N` reduces to 0, whatever `N` is. -/
theorem fullCycleRotationIsNoOp : Obligations.FullCycleRotationIsNoOp := by
  intro s t m hs
  refine exec_rotate_of_floorMod_zero hs ?_
  rw [floorMod, Int.mul_emod_left, Int.toNat_zero]

/-! ## The rotation relation -/

/-- `t'` is `t` with each record replaced by the record that R122 names for a rotation by `p`. -/
structure RotatedBy (lower : Bool) (p : Int) (t t' : Strip) : Prop where
  config : Strip.sameConfig t t'
  canonical : t'.canonical
  record : ∀ i c, i < t.pixelCount → c < 4 →
    t'.readByte (4 * i + c) =
      t.readByte (4 * rotateSource lower t.pixelCount (floorMod p t.pixelCount) i + c)

theorem RotatedBy.pixelCount {lower : Bool} {p : Int} {t t' : Strip} (h : RotatedBy lower p t t') :
    t'.pixelCount = t.pixelCount := by
  obtain ⟨hcount, -⟩ := h.config
  exact hcount

/-- A rotation by 0 leaves the strip. -/
theorem RotatedBy.zero (lower : Bool) {t : Strip} (ht : t.canonical) : RotatedBy lower 0 t t := by
  refine ⟨Strip.sameConfig.refl t, ht, fun i c hi _ => ?_⟩
  have hsource : rotateSource lower t.pixelCount (floorMod 0 t.pixelCount) i = i := by
    have hcast := rotateSource_cast lower (by omega : 0 < t.pixelCount) 0 i
    rw [Int.add_zero, Int.sub_zero, ite_self, Int.emod_eq_of_lt (by omega) (by omega)] at hcast
    exact_mod_cast hcast
  rw [hsource]

/-- Rotations one after the other rotate by the sum of their amounts (R126). -/
theorem RotatedBy.add {lower : Bool} {p q : Int} {t u v : Strip} (h : RotatedBy lower p t u)
    (h' : RotatedBy lower q u v) : RotatedBy lower (p + q) t v := by
  have hrecord := h'.record
  rw [h.pixelCount] at hrecord
  refine ⟨h.config.trans h'.config, h'.canonical, fun i c hi hc => ?_⟩
  have hpos : 0 < t.pixelCount := by omega
  rw [hrecord i c hi hc, h.record _ c (rotateSource_lt lower hpos _ i) hc, rotateSource_add lower hpos]

/-- A rotation has one result. -/
theorem RotatedBy.unique {lower : Bool} {p : Int} {t u v : Strip} (hu : RotatedBy lower p t u)
    (hv : RotatedBy lower p t v) : u = v := by
  refine Strip.ext_of_readByte hv.canonical hu.canonical (hv.config.symm.trans hu.config) fun a => ?_
  by_cases ha : a < 4 * t.pixelCount
  · have hi : a / 4 < t.pixelCount := by omega
    have hc : a % 4 < 4 := Nat.mod_lt a (by omega)
    rw [← Nat.div_add_mod a 4, hu.record _ _ hi hc, hv.record _ _ hi hc]
  · have hout : t.size ≤ a := Nat.not_lt.1 ha
    rw [Strip.readByte_outside (hu.config.size ▸ hout), Strip.readByte_outside (hv.config.size ▸ hout)]

/-- `rotate` rotates, on a strip of any number of pixels (R121, R122). -/
theorem exec_rotate_rotatedBy {s : State} {t : Strip} (hs : s.strip = some t) (ht : t.canonical) (p : Int) :
    ∃ t', exec (.rotate p) s = .next (s.mutated t') ∧ RotatedBy s.cfg.rotPositiveTowardLower p t t' := by
  by_cases hn : 2 ≤ t.pixelCount
  · obtain ⟨t', hexec, hconfig, hcanonical, hrecord⟩ := execRotate_spec hs ht hn p
    exact ⟨t', hexec, hconfig, hcanonical, hrecord⟩
  · refine ⟨t, ?_, Strip.sameConfig.refl t, ht, fun i c hi _ => ?_⟩
    · rw [State.mutated_self hs]
      exact execRotate_small hs (by omega) p
    · have hsource := rotateSource_lt s.cfg.rotPositiveTowardLower (by omega : 0 < t.pixelCount)
        (floorMod p t.pixelCount) i
      congr 1
      omega

/-- Settles O36: the remainder in the statement is the source of the record, and past the buffer there is
no byte before or after. -/
theorem rotateMovesRecords : Obligations.RotateMovesRecords := by
  intro s t p hs ht hn
  obtain ⟨t', hexec, hrotated⟩ := exec_rotate_rotatedBy hs ht.canonical p
  refine ⟨t', hexec, hrotated.config, fun i j c hi _ hc hj => ?_, fun a ha => ?_⟩
  · rw [← rotateSource_cast _ (by omega)] at hj
    rw [hrotated.record i c hi hc, ← Int.ofNat_inj.1 hj]
  · rw [Strip.readByte_outside (hrotated.config.size ▸ ha), Strip.readByte_outside ha]

/-- Settles O37: the two rotations are one by `k + -k`, which is 0. -/
theorem rotateBackRestores : Obligations.RotateBackRestores := by
  intro s t k hs ht
  obtain ⟨u, hexec, hu⟩ := exec_rotate_rotatedBy hs ht.canonical k
  obtain ⟨v, hexec', hv⟩ := exec_rotate_rotatedBy (s := s.mutated u) rfl hu.canonical (-k)
  have hback := hu.add hv
  rw [Int.add_right_neg] at hback
  exact ⟨_, _, hexec, hexec', congrArg some (hback.unique (.zero _ ht.canonical))⟩

/-- Settles O38: the two rotations are one by `p + q`, and that one has one result. -/
theorem rotationsAdd : Obligations.RotationsAdd := by
  intro s t p q hs ht
  obtain ⟨u, hexec, hu⟩ := exec_rotate_rotatedBy hs ht.canonical p
  obtain ⟨v, hexec', hv⟩ := exec_rotate_rotatedBy (s := s.mutated u) rfl hu.canonical q
  obtain ⟨w, hexec'', hw⟩ := exec_rotate_rotatedBy hs ht.canonical (p + q)
  exact ⟨_, _, _, hexec, hexec', hexec'', congrArg some ((hu.add hv).unique hw)⟩

/-! ## The minimal-work algorithm -/

/-- By how many records a rotation by a reduced amount `k` moves the strip toward lower indices. -/
def lowerDistance (lower : Bool) (n k : Nat) : Nat := if lower then k else n - k

/-- The opposite direction by the rest of the cycle goes as far: the two equivalent rotations of R125. -/
theorem lowerDistance_opposite (lower : Bool) {n k : Nat} (hk : k ≤ n) :
    lowerDistance (!lower) n (n - k) = lowerDistance lower n k := by
  cases lower
  · rfl
  · exact Nat.sub_sub_self hk

theorem lowerDistance_le (lower : Bool) {n k : Nat} (hk : k ≤ n) : lowerDistance lower n k ≤ n := by
  cases lower
  · exact Nat.sub_le n k
  · exact hk

/-- The source of a record, by the distance toward lower indices (R122). -/
theorem rotateSource_eq_lowerDistance (lower : Bool) {n k : Nat} (hk : k ≤ n) (i : Nat) :
    rotateSource lower n k i = (i + lowerDistance lower n k) % n := by
  cases lower
  · have hcast : (i : Int) - k + n = ((i + (n - k) : Nat) : Int) := by omega
    change floorMod ((i : Int) - k) n = (i + (n - k)) % n
    rw [floorMod, ← Int.add_emod_right, hcast, ← Int.natCast_emod, Int.toNat_natCast]
  · rfl

/-- The block moves rotate the list of bytes (R125). -/
theorem blockMove_eq_rotate (lower : Bool) {n m : Nat} {bytes : List Byte} (hm : m ≤ n)
    (hlength : bytes.length = 4 * n) :
    blockMove lower n m bytes = bytes.rotate (4 * lowerDistance lower n m) := by
  have hle := lowerDistance_le lower hm
  rw [List.rotate_eq_drop_append_take (by omega)]
  cases lower <;> rfl

/-- Whichever of the two rotations is the smaller, the algorithm rotates the list by the same distance
(R125). -/
theorem minimalWorkRotate_eq_rotate (lower : Bool) {n k : Nat} {bytes : List Byte} (hk : k ≤ n)
    (hlength : bytes.length = 4 * n) :
    minimalWorkRotate lower n k bytes = bytes.rotate (4 * lowerDistance lower n k) := by
  rw [minimalWorkRotate]
  split
  · rw [blockMove_eq_rotate _ (Nat.sub_le n k) hlength, lowerDistance_opposite lower hk]
  · exact blockMove_eq_rotate lower hk hlength

/-- Rotating the bytes by whole records moves records: byte `c` of record `i` comes from byte `c` of the
record `d` further on. -/
theorem getElem?_rotate_records {n d i c : Nat} {bytes : List Byte} (hlength : bytes.length = 4 * n)
    (hi : i < n) (hc : c < 4) : (bytes.rotate (4 * d))[4 * i + c]? = bytes[4 * ((i + d) % n) + c]? := by
  have hindex : (4 * i + c + 4 * d) % (4 * n) = 4 * ((i + d) % n) + c := by
    rw [Nat.mod_mul, show (4 * i + c + 4 * d) % 4 = c by omega, show (4 * i + c + 4 * d) / 4 = i + d by omega,
      Nat.add_comm]
  rw [List.getElem?_rotate (by omega), hlength, hindex]

/-- The bytes of a rotated strip are the bytes before as a rotated list (R122, R124). -/
theorem RotatedBy.memRead {lower : Bool} {p : Int} {t t' : Strip} (h : RotatedBy lower p t t')
    (hn : 0 < t.pixelCount) {bytes : List Byte} (hread : t.memRead 0 t.size = some bytes) :
    t'.memRead 0 t'.size =
      some (bytes.rotate (4 * lowerDistance lower t.pixelCount (floorMod p t.pixelCount))) := by
  obtain ⟨bytes', hread', hlength', hbytes'⟩ := t'.memRead_whole
  obtain ⟨_, hsame, hlength, hbytes⟩ := t.memRead_whole
  obtain rfl := Option.some.inj (hsame.symm.trans hread)
  rw [h.pixelCount] at hlength'
  rw [hread', Option.some.injEq]
  refine List.ext_getElem? fun a => ?_
  by_cases ha : a < 4 * t.pixelCount
  · have hi : a / 4 < t.pixelCount := by omega
    have hc : a % 4 < 4 := Nat.mod_lt a (by omega)
    rw [← Nat.div_add_mod a 4, getElem?_rotate_records hlength hi hc, hbytes', hbytes, h.record _ _ hi hc,
      rotateSource_eq_lowerDistance lower (floorMod_lt p hn).le]
  · rw [List.getElem?_eq_none (by omega), List.getElem?_eq_none (by rw [List.length_rotate]; omega)]

/-- Settles O40: `rotate` and the algorithm leave the same rotation of the bytes before. -/
theorem minimalWorkRotationAgrees : Obligations.MinimalWorkRotationAgrees := by
  intro s t p hs ht hn
  have hpos : 0 < t.pixelCount := by omega
  obtain ⟨t', hexec, hrotated⟩ := exec_rotate_rotatedBy hs ht.canonical p
  obtain ⟨bytes, hread, hlength, -⟩ := t.memRead_whole
  refine ⟨bytes, t', hread, hexec, ?_⟩
  rw [hrotated.memRead hpos hread]
  exact congrArg some (minimalWorkRotate_eq_rotate _ (floorMod_lt p hpos).le hlength).symm

end Sys2Proof.Machine
end

section
/-! SUPPORT. What `show` leaves and emits: nothing without a sink, the strip and a usable machine after a
failure, one frame that the pixel count and the buffer's bytes determine. -/

namespace Sys2Proof.Machine

/-- Settles O42: the two outcomes of `show` are told apart by the send capability alone. -/
theorem showWithoutSendIsNoOp : Obligations.ShowWithoutSendIsNoOp :=
  fun _ _ hs hsend => execShowFrame_absent hs hsend

@[simp] theorem showResponse_frames (ok : Bool) (s : State) : (showResponse ok s).frames = s.frames := by
  rw [showResponse_eq]

@[simp] theorem showResponse_sinkAnswers (ok : Bool) (s : State) :
    (showResponse ok s).sinkAnswers = s.sinkAnswers := by
  rw [showResponse_eq]

@[simp] theorem showResponse_replies (ok : Bool) (s : State) :
    (showResponse ok s).replies =
      s.replies ++ [.response ⟨if ok then .ok else .sendFailure, .none⟩] := by
  rw [showResponse_eq]

/-- Settles O43: the answer taken is the failing one, and the strip it leaves is one on which every
operation completes. -/
theorem failedShowKeepsTheStrip : Obligations.FailedShowKeepsTheStrip := by
  intro s t rest i hs hsend hanswers
  obtain ⟨bytes, -, -, hexec⟩ := execShowFrame_present hs hsend
  rw [State.sinkAnswer_cons hanswers] at hexec
  have hstrip : (showResponse false
      (s.takeSinkAnswer.emitFrame (frameOf t.pixelCount bytes))).strip = some t := by simp [hs]
  obtain ⟨s2, hnext, -⟩ := exec_completes i hstrip
  refine ⟨_, s2, hexec, ?_, hstrip, ?_, hnext⟩
  · simp
  · simp [s.takeSinkAnswer_queue, hanswers]

/-- `show` with a send capability adds one frame, that of the bytes the strip reads as (R131, R132). -/
theorem exec_showFrame_frames {s : State} {t : Strip} (hs : s.strip = some t) (hsend : t.send = true) :
    ∃ bytes s', exec .showFrame s = .next s' ∧ bytes.length = t.size ∧
      (∀ j, j < t.size → bytes[j]? = t.readByte j) ∧
      s'.frames = s.frames ++ [frameOf t.pixelCount bytes] := by
  obtain ⟨bytes, hlength, hbytes, hexec⟩ := execShowFrame_present hs hsend
  exact ⟨bytes, _, hexec, hlength, hbytes, by simp⟩

/-- Settles O44: the global brightness and the channel map are not read, so equal bytes under an equal
count are one list, and its frame is one frame. -/
theorem equalBuffersEmitEqualFrames : Obligations.EqualBuffersEmitEqualFrames := by
  intro s1 s2 t1 t2 hs1 hs2 hsend1 hsend2 hcount hread
  obtain ⟨bytes1, s1', hexec1, hlength1, hbytes1, hframes1⟩ := exec_showFrame_frames hs1 hsend1
  obtain ⟨bytes2, s2', hexec2, hlength2, hbytes2, hframes2⟩ := exec_showFrame_frames hs2 hsend2
  have hsize : t1.size = t2.size := congrArg (4 * ·) hcount
  have hsame : bytes1 = bytes2 := by
    refine List.ext_getElem?' fun j hj => ?_
    have hj1 : j < t1.size := by omega
    rw [hbytes1 j hj1, hbytes2 j (hsize ▸ hj1), hread]
  rw [hcount, hsame] at hframes1
  exact ⟨_, s1', s2', hexec1, hexec2, hframes1, hframes2⟩

end Sys2Proof.Machine
end

section
/-! SUPPORT. What the queries, the pure helpers, the dump and the property reads answer: one colour in three
formats, or the absent sentinel, or the free colour past the end; a packed colour; the raw bytes. -/

namespace Sys2Proof.Machine

/-! ## One colour in three formats -/

/-- The packed colour gives back the channels, by division (R65, R67). -/
theorem colourTriple_of_packed (r g b : Byte) :
    colourTriple r g b = .triple ((packColour r g b).toNat / 65536)
      ((packColour r g b).toNat / 256 % 256) ((packColour r g b).toNat % 256) := by
  have hg := g.isLt
  have hb := b.isLt
  rw [colourTriple, packColour_toNat]
  congr 1 <;> omega

/-- The six hexadecimal digits of a packed colour, the highest first (R66). -/
def packedDigits (v : Nat) : List Char :=
  [upperHex (v / 16 ^ 5), upperHex (v / 16 ^ 4 % 16), upperHex (v / 16 ^ 3 % 16),
    upperHex (v / 16 ^ 2 % 16), upperHex (v / 16 % 16), upperHex (v % 16)]

/-- Each channel gives two of the digits (R66). -/
theorem packedDigits_channels (r : Nat) {g b : Nat} (hg : g < 256) (hb : b < 256) :
    packedDigits (r * 65536 + g * 256 + b) =
      [upperHex (r / 16), upperHex (r % 16), upperHex (g / 16), upperHex (g % 16), upperHex (b / 16),
        upperHex (b % 16)] := by
  simp only [packedDigits, List.cons.injEq, and_true]
  refine ⟨?_, ?_, ?_, ?_, ?_, ?_⟩ <;> congr 1 <;> omega

/-- The colour string is `#` and the digits of the packed colour (R66, R144). -/
theorem colourString_of_packed (r g b : Byte) :
    colourString r g b = .string ('#' :: packedDigits (packColour r g b).toNat) := by
  rw [colourString_eq, packColour_toNat, packedDigits_channels _ g.isLt b.isLt]

/-- Inside the strip a query answers the same colour in every format (R42, R140, R144). -/
theorem queryPixel_inside_everyFormat {s : State} {t : Strip} (hs : s.strip = some t) {index : Int}
    (hq : queryOk t.pixelCount index = true) :
    ∃ r g b, ∀ f, queryPixel f index s = .next (s.answered (f r g b)) := by
  obtain ⟨hlo, hhi⟩ := queryOk_iff.1 hq
  obtain ⟨r, g, b, hread, -⟩ := Strip.readColour_spec (t := t) (i := index.toNat) (by omega)
  refine ⟨r, g, b, fun f => ?_⟩
  rw [queryPixel, State.withStrip_some hs, if_pos hq, hread]
  rfl

/-- Settles O49: inside the strip the colour the query reads is one packed value, whose channels and whose
digits the other formats are; outside it, under the strict bound, every format is the absent sentinel. -/
theorem queriesAgree : Obligations.QueriesAgree := by
  intro s t index hs hstrict
  by_cases hq : queryOk t.pixelCount index = true
  · obtain ⟨r, g, b, hquery⟩ := queryPixel_inside_everyFormat hs hq
    refine .inr ⟨(packColour r g b).toNat, _, (packColour r g b).isLt, hquery colourPacked, ?_, ?_, rfl⟩
    · rw [← colourTriple_of_packed]
      exact hquery colourTriple
    · exact colourString_of_packed r g b ▸ hquery colourString
  · have hout : index < 0 ∨ (t.pixelCount : Int) < index ∨
        (index = t.pixelCount ∧ s.cfg.queryBoundInclusive = false) := by
      rw [queryOk_iff] at hq
      simp only [hstrict, and_true]
      omega
    exact .inl ⟨queryPixel_absent hs hout _, queryPixel_absent hs hout _, queryPixel_absent hs hout _⟩

/-- Under the inclusive bound a query at index `N` answers the next free colour (R140, U1). -/
theorem queryPixel_pastEnd {s : State} {t : Strip} (hs : s.strip = some t)
    (hincl : s.cfg.queryBoundInclusive = true) (f : Byte → Byte → Byte → Payload) :
    queryPixel f t.pixelCount s =
      .next (s.drawFree.answered (f (Packed.red (Config.freeColour s.freeCount))
        (Packed.green (Config.freeColour s.freeCount)) (Packed.blue (Config.freeColour s.freeCount)))) := by
  have hq : ¬ queryOk t.pixelCount t.pixelCount = true := by
    rw [queryOk_iff]
    omega
  rw [queryPixel_outside hs hq f, if_pos (queryPastEnd_iff.2 ⟨hincl, rfl⟩)]

/-- Settles O48: the channels are those of the free colour drawn, in each of the three formats. -/
theorem inclusiveQueryAnswersSomeColour : Obligations.InclusiveQueryAnswersSomeColour := by
  intro s t hs hincl
  have hquery := queryPixel_pastEnd hs hincl
  refine ⟨⟨_, _, _, hquery colourTriple⟩, ⟨_, BitVec.isLt _, hquery colourPacked⟩, ?_⟩
  exact ⟨_, _, _, colourString_eq _ _ _ ▸ hquery colourString⟩

/-! ## Combined colours -/

/-- `combine_color` answers the packed colour (R145). -/
theorem exec_combineColor {s : State} {t : Strip} (hs : s.strip = some t) (r g b : Byte) :
    exec (.combineColor r g b) s = .next (s.answered (.int (packColour r g b).toNat)) :=
  State.withStrip_some hs _

/-- Settles O50: the op selects its arm of the decoder, and the packed colour is written out as a number. -/
theorem combineColorPacks : Obligations.CombineColorPacks := by
  refine ⟨fun c => ?_, fun s t r g b hs => ?_⟩
  · obtain ⟨-, -, -, -, -, -, -, -, -, -, -, -, hcombine, -⟩ := opSelectsOperation c
    exact hcombine
  · rw [exec_combineColor hs, packColour_toNat]

/-- Settles O51: the packed operand of a packed colour is that colour, whose channels are the ones packed. -/
theorem combineThenSetIsSetPixel : Obligations.CombineThenSetIsSetPixel := by
  intro s t index r g b br hs
  refine ⟨(packColour r g b).toNat, exec_combineColor hs r g b, ?_⟩
  obtain ⟨hr, hg, hb⟩ := packColour_channels r g b
  change setOne index (Packed.red (packedOperand _)) (Packed.green (packedOperand _))
    (Packed.blue (packedOperand _)) br s = setOne index r g b br s
  rw [packedOperand_packed, hr, hg, hb]

/-! ## The dump and the property reads -/

/-- Settles O54: the bytes recorded are the ones read from the whole buffer. -/
theorem dumpShowsRawBytes : Obligations.DumpShowsRawBytes := by
  intro s t hs
  obtain ⟨bytes, hlength, hbytes, hexec⟩ := execDumpArray_spec hs
  exact ⟨bytes, hexec, hlength, hbytes⟩

/-- Settles O55: the ops select their arms of the decoder, and each read answers from the strip that is
there. -/
theorem propertyReadsAnswer : Obligations.PropertyReadsAnswer := by
  refine ⟨fun c => ?_, fun s t hs => ?_⟩
  · obtain ⟨-, -, -, -, -, -, -, -, -, -, -, -, -, -, -, hcount, hbrightness, -, -, hmax⟩ :=
      opSelectsOperation c
    exact ⟨hcount, hbrightness, hmax⟩
  · exact ⟨State.withStrip_some hs _, State.withStrip_some hs _, State.withStrip_some hs _⟩

end Sys2Proof.Machine
end

section
/-! SUPPORT. The colour wheel: the default formula band by band, each band's formula holding up to the first
position of the next, and what the law of R150 says of every wheel. -/

namespace Sys2Proof.Machine

/-- `wheel` answers the colour of the implementation's wheel at the position (R150). -/
theorem exec_wheel {s : State} {t : Strip} (hs : s.strip = some t) (p : Byte) :
    exec (.wheel p) s = .next (s.answered (.int (wheelOf s.cfg p).toNat)) :=
  State.withStrip_some hs _

/-! ## The default formula -/

/-- Without a table the wheel is the formula (R7, R151). -/
theorem wheelOf_noTable {cfg : Config} (h : cfg.wheelTable = none) (p : Byte) :
    wheelOf cfg p = wheelFormula p := by
  simp only [wheelOf, h]

/-- With a table the wheel is its entry (R7, R150). -/
theorem wheelOf_table {cfg : Config} {w : Vector Packed 256} (h : cfg.wheelTable = some w) (p : Byte) :
    wheelOf cfg p = w.get p.toFin := by
  simp only [wheelOf, h]

/-- A channel value below 256 is kept by its byte (R77). -/
theorem toNat_channel_ofNat {n : Nat} (h : n < 256) : (BitVec.ofNat 8 n).toNat = n :=
  (BitVec.toNat_ofNat n 8).trans (Nat.mod_eq_of_lt h)

/-- The first band of R151, which ends in the red the second begins with. -/
theorem wheelFormula_greenToRed {p : Byte} (hp : p.toNat ≤ 85) :
    wheelFormula p = packColour (BitVec.ofNat 8 (3 * p.toNat)) (BitVec.ofNat 8 (255 - 3 * p.toNat)) 0 := by
  rcases hp.lt_or_eq with hlt | heq
  · rw [wheelFormula, if_pos hlt]
  · simp [wheelFormula, heq]

/-- The second band of R151, which ends in the blue the third begins with. -/
theorem wheelFormula_redToBlue {p : Byte} (hlo : 85 ≤ p.toNat) (hhi : p.toNat ≤ 170) :
    wheelFormula p =
      packColour (BitVec.ofNat 8 (255 - 3 * (p.toNat - 85))) 0 (BitVec.ofNat 8 (3 * (p.toNat - 85))) := by
  rcases hhi.lt_or_eq with hlt | heq
  · rw [wheelFormula, if_neg (by omega), if_pos hlt]
  · simp [wheelFormula, heq]

/-- The third band of R151. -/
theorem wheelFormula_blueToGreen {p : Byte} (hlo : 170 ≤ p.toNat) :
    wheelFormula p =
      packColour 0 (BitVec.ofNat 8 (3 * (p.toNat - 170))) (BitVec.ofNat 8 (255 - 3 * (p.toNat - 170))) := by
  rw [wheelFormula, if_neg (by omega), if_neg (by omega)]

/-- Settles O52: a table gives its entry, the formula the ramp of the position's band. -/
theorem wheelFollowsItsBands : Obligations.WheelFollowsItsBands := by
  intro s t p hs
  refine ⟨(wheelOf s.cfg p).toNat, exec_wheel hs p, fun hnone => ?_, fun w hw => ?_⟩
  · rw [wheelOf_noTable hnone]
    have hp := p.isLt
    refine ⟨fun h => ?_, fun hlo hhi => ?_, fun h => ?_⟩
    · rw [wheelFormula_greenToRed h.le, packColour_toNat]
      simp (disch := omega) [Nat.mod_eq_of_lt]
    · rw [wheelFormula_redToBlue hlo hhi.le, packColour_toNat]
      simp (disch := omega) [Nat.mod_eq_of_lt]
    · rw [wheelFormula_blueToGreen h, packColour_toNat]
      simp (disch := omega) [Nat.mod_eq_of_lt]
  · rw [wheelOf_table hw]
    rfl

/-- Settles O53: a position and the next lie in one band, its end included, along which every channel
moves by 3 or not at all. -/
theorem defaultWheelIsContinuous : Obligations.DefaultWheelIsContinuous := by
  intro p hp
  have hthis : (BitVec.ofNat 8 p).toNat = p := toNat_channel_ofNat (by omega)
  have hnext : (BitVec.ofNat 8 (p + 1)).toNat = p + 1 := toNat_channel_ofNat (by omega)
  rw [wheelOf_noTable rfl, wheelOf_noTable rfl, closeColours_iff]
  obtain hband | ⟨hlo, hhi⟩ | hband : p < 85 ∨ (85 ≤ p ∧ p < 170) ∨ 170 ≤ p := by omega
  · rw [wheelFormula_greenToRed (by omega), wheelFormula_greenToRed (by omega), hthis, hnext]
    simp (disch := omega) only [packColour_channels, toNat_channel_ofNat]
    omega
  · rw [wheelFormula_redToBlue (by omega) (by omega), wheelFormula_redToBlue (by omega) (by omega),
      hthis, hnext]
    simp (disch := omega) only [packColour_channels, toNat_channel_ofNat]
    omega
  · rw [wheelFormula_blueToGreen (by omega), wheelFormula_blueToGreen (by omega), hthis, hnext]
    simp (disch := omega) only [packColour_channels, toNat_channel_ofNat]
    omega

/-! ## Every lawful wheel -/

/-- A packed colour as the number its channels make (R65). -/
theorem Packed.toNat_eq_channels (w : Packed) :
    w.toNat = (Packed.red w).toNat * 65536 + (Packed.green w).toNat * 256 + (Packed.blue w).toNat := by
  have hw := w.isLt
  simp only [Packed.red, Packed.green, Packed.blue, BitVec.extractLsb'_toNat, Nat.shiftRight_eq_div_pow]
  omega

/-- At the start of a band the first channel is above the second, at its end below it (R150). -/
theorem WheelBand.ends {w : Nat → Packed} {first len : Nat} {c d e : Packed → Byte}
    (h : WheelBand w first len c d e) :
    (d (w first)).toNat < (c (w first)).toNat ∧ (c (w (first + len))).toNat < (d (w (first + len))).toNat := by
  obtain ⟨-, -, ⟨hstart, -⟩, hend, -⟩ := h
  exact ⟨hstart, hend⟩

/-- The value of one channel of the wheel at a position. -/
def wheelChannel (cfg : Config) (c : Packed → Byte) (p : Nat) : Nat :=
  (c (wheelOf cfg (BitVec.ofNat 8 p))).toNat

/-- The wheel's colour is the number its channels make (R65). -/
theorem wheelOf_toNat (cfg : Config) (p : Byte) :
    (wheelOf cfg p).toNat = wheelChannel cfg Packed.red p.toNat * 65536 +
      wheelChannel cfg Packed.green p.toNat * 256 + wheelChannel cfg Packed.blue p.toNat := by
  simp only [wheelChannel, BitVec.ofNat_toNat, BitVec.setWidth_eq]
  exact Packed.toNat_eq_channels _

/-- Settles O58: the channels are functions of the position, and the law's three bands and two inner
boundaries give one group of clauses each. -/
theorem lawfulWheelRunsThroughItsBands : Obligations.LawfulWheelRunsThroughItsBands := by
  rintro cfg ⟨hfirst, hsecond, hthird, hclose, hclose'⟩
  refine ⟨wheelChannel cfg Packed.red, wheelChannel cfg Packed.green, wheelChannel cfg Packed.blue, ?_,
    fun p => ⟨BitVec.isLt _, BitVec.isLt _, BitVec.isLt _⟩, fun p q hpq hq => ?_, fun p q hp hpq hq => ?_,
    fun p q hp hpq hq => ?_, hfirst.ends, hsecond.ends, hthird.ends, ?_⟩
  · rintro s t p rfl hs
    rw [exec_wheel hs, wheelOf_toNat]
  · exact hfirst.mono (Nat.zero_le p) hpq (by omega)
  · exact hsecond.mono hp hpq (by omega)
  · exact hthird.mono hp hpq (by omega)
  · rintro p (rfl | rfl)
    · exact closeColours_iff.1 hclose
    · exact closeColours_iff.1 hclose'

end Sys2Proof.Machine
end

section
/-! SUPPORT. The operations that cannot fail, the step that executes no command, and the one construction that
fails. -/

namespace Sys2Proof.Machine

/-- Settles O15: an operation that answers a next state found a strip, and on a strip every operation but
`show` completes quietly. -/
theorem onlyShowEmitsOrFails : Obligations.OnlyShowEmitsOrFails := by
  intro i s s' hi h
  obtain ⟨t, hs⟩ := exec_next_strip h
  obtain ⟨u, hnext, -, -, hreplies, hframes, hanswers, -⟩ := exec_completesQuietly hi hs
  rw [h] at hnext
  cases hnext
  exact ⟨hframes, hanswers, hreplies⟩

/-- With nothing pending the block is idle (R185). -/
theorem step_idle {s : State} (hin : s.inbox = []) : step s = .next s := by
  simp only [step, hin]

/-- A pending construction is executed once it is taken from the inbox (R190). -/
theorem step_construct {s : State} {args : ConstructArgs} {rest : List HostEvent}
    (hin : s.inbox = .construct args :: rest) : step s = execConstruct args { s with inbox := rest } := by
  simp only [step, hin]

/-- Settles O2: the step's equations for the empty inbox and for a pending construction. -/
theorem stepIdlesOrConstructs : Obligations.StepIdlesOrConstructs :=
  ⟨fun _ hin => step_idle hin, fun _ _ _ hin => step_construct hin⟩

/-- A `send` argument of the wrong type is all that the construction looks at (R177, R197). -/
theorem execConstruct_of_send_other {args : ConstructArgs} (hsend : args.send = .other) (s : State) :
    execConstruct args s = .next ((s.setStrip none).reportConstruction .typeError) := by
  simp only [execConstruct, hsend]

/-- Settles O21: removing the strip and reporting the error change these two fields only. -/
theorem constructTypeErrorLeavesNoStrip : Obligations.ConstructTypeErrorLeavesNoStrip :=
  fun s _ hsend => execConstruct_of_send_other hsend s

end Sys2Proof.Machine
end

section
/-! SUPPORT. What a construction leaves (the configuration of its strip, every byte, the send capability that
decides `show`), and the operations where no strip exists. -/

namespace Sys2Proof.Machine

/-- Settles O18: every operation acts through the strip. -/
theorem commandsNeedAStrip : Obligations.CommandsNeedAStrip :=
  fun i _ hs => exec_noStrip i hs

/-- A construction that completes with a strip completes with the one that `constructStrip` makes, whatever
strip there was before (R196). -/
theorem construct_next_strip {args : ConstructArgs} {s s' : State} {t : Strip}
    (h : execConstruct args s = .next s') (hs' : s'.strip = some t) :
    ∃ send, (send = true ↔ args.send = .callable) ∧ t = constructStrip s.cfg args send := by
  obtain ⟨-, rfl⟩ | ⟨send, hcallable, -, -, rfl⟩ := construct_cases h
  · cases hs'
  · exact ⟨send, hcallable, (Option.some.inj hs').symm⟩

/-- Every byte of a constructed strip is the reset byte of its offset (R195). -/
theorem constructStrip_readByte (cfg : Config) (args : ConstructArgs) (send : Bool) (a : Nat) :
    (constructStrip cfg args send).readByte a =
      if a < (constructStrip cfg args send).size then some (resetByte a) else none := rfl

/-- Settles O20: the strip is a constructed one, so its bytes are the reset bytes. -/
theorem constructedBufferIsDark : Obligations.ConstructedBufferIsDark := by
  intro s s' args t _ h hs' a
  obtain ⟨send, -, rfl⟩ := construct_next_strip h hs'
  exact constructStrip_readByte s.cfg args send a

/-- Settles O57: the strip's send flag is the constructed one, and where no callable was supplied it is
clear, which makes `show` a no-op. -/
theorem constructedSendDecidesShow : Obligations.ConstructedSendDecidesShow := by
  intro s s' args t _ h hs'
  obtain ⟨send, hcallable, rfl⟩ := construct_next_strip h hs'
  refine ⟨hcallable, fun habsent => showWithoutSendIsNoOp _ _ hs' ?_⟩
  have hnot : ¬ send = true := fun hsend => by
    rw [hcallable.1 hsend] at habsent
    cases habsent
  exact Bool.eq_false_of_not_eq_true hnot

/-- A construction with a `send` argument of the right type and an admitted count makes its strip, adds one
report and leaves the rest of the machine (R190, R196). -/
theorem execConstruct_admitted {args : ConstructArgs} {s : State} (hsend : args.send ≠ .other)
    (hadmits : s.cfg.admits (constructedCount args.pixelCount).toNat = true) :
    ∃ send, (send = true ↔ args.send = .callable) ∧
      execConstruct args s =
        .next ((s.setStrip (some (constructStrip s.cfg args send))).reportConstruction .constructed) := by
  obtain ⟨flag, htyped⟩ := execConstruct_of_send_typed hsend s
  rw [constructWith, if_pos hadmits] at htyped
  obtain ⟨hother, -⟩ | ⟨send, hcallable, -, -, hnext⟩ := construct_cases htyped
  · exact absurd hother hsend
  · exact ⟨send, hcallable, htyped.trans (congrArg _ hnext)⟩

/-- `N` of a constructed strip over the integers (R191). -/
theorem constructStrip_pixelCount (cfg : Config) (args : ConstructArgs) (send : Bool) :
    ((constructStrip cfg args send).pixelCount : Int) = max 0 args.pixelCount.toInt := by
  rw [Strip.pixelCount, constructStrip, constructedCount_eq]
  exact Int.toNat_of_nonneg (Int.le_max_left _ _)

/-- Settles O19: the strip is the constructed one; each clause is the spec lemma of one of its fields. -/
theorem constructBuildsStrip : Obligations.ConstructBuildsStrip := by
  intro s args hsend hadmits
  rw [← constructedCount_eq] at hadmits
  obtain ⟨send, hcallable, hexec⟩ := execConstruct_admitted hsend hadmits
  refine ⟨constructStrip s.cfg args send, hexec, constructStrip_pixelCount _ _ _,
    constructedBrightness_eq _, rfl, fun homitted => ?_, hcallable, constructStrip_inv _ _ _⟩
  rw [constructStrip, homitted]
  rfl

end Sys2Proof.Machine
end
